-- ==== Sys2Proof/Config.lean ====
section
/-! DEFINITION. Config.lean: the implementation parameters the spec fixes (spec/00_scope.md R5). No
implementation may choose them. The two parameters that R7 leaves open, `alloc_fails` and `input_event`, are the
host's answers during a run: they stand in `Machine.State` as plain data (log 4 and 6). The ISA has no undefined
result, so no opaque free value is needed. -/

namespace Sys2Proof.Config

/-- `NREG`, the number of general registers (R5, R13). -/
abbrev numRegs : Nat := 8

/-- The number of defined operations; opcodes from this one up are illegal (R5, R67). -/
abbrev numOps : Nat := 14

/-- The width of the Load-Value immediate (R5, R63). -/
abbrev immBits : Nat := 25

/-- No segment has more words than this: the bound on the program image (R141, decision D10) and on the length
Map Segment can ask for (R6). -/
abbrev maxSegmentWords : Nat := 2 ^ 32 - 1

end Sys2Proof.Config
end

