-- ==== Sys2Proof/Word.lean ====
section
/-! DEFINITION. Word.lean: the two units of data of the ISA, the 32-bit word (spec/00_scope.md R5 `XLEN`,
spec/20_memory.md R46) and the byte of an Input or an Output (R5 "I/O granule"). -/

namespace Sys2Proof

/-- A register value, a memory word, a segment id, a segment offset, or `pc`: 32 bits, unsigned (R5, R83). -/
abbrev Word := BitVec 32

/-- What one Input or Output moves (R5). -/
abbrev Byte := BitVec 8

end Sys2Proof
end

