-- ==== Sys2Proof/Syntax.lean ====
section
/-! DEFINITION. Syntax.lean: the fourteen instructions, one constructor per row of spec/opcode_table.json, each
with the operand fields its handler uses (spec/30_encoding.md R64, R73, R77). Fields that a handler does not use
(R65, R66) are no operands. -/

namespace Sys2Proof

/-- The index of a general register. A 3-bit field always names one of the eight (R14, R62). -/
abbrev Reg := Fin 8

/-- The instructions of rum-v4 (R64). -/
inductive Instr where
  /-- Conditional Move, `cmov rA, rB, rC` (R80). -/
  | cmov (a b c : Reg)
  /-- Segmented Load, `load rA, rB, rC` (R81). -/
  | load (a b c : Reg)
  /-- Segmented Store, `store rA, rB, rC` (R82). -/
  | store (a b c : Reg)
  /-- Add, `add rA, rB, rC` (R86). -/
  | add (a b c : Reg)
  /-- Multiply, `mul rA, rB, rC` (R87). -/
  | mul (a b c : Reg)
  /-- Divide, `div rA, rB, rC` (R88). -/
  | div (a b c : Reg)
  /-- Bitwise NAND, `nand rA, rB, rC` (R89). -/
  | nand (a b c : Reg)
  /-- Halt, `halt` (R91). -/
  | halt
  /-- Map Segment, `map rB, rC` (R92). -/
  | map (b c : Reg)
  /-- Unmap Segment, `unmap rC` (R93). -/
  | unmap (c : Reg)
  /-- Output, `out rC` (R95). -/
  | out (c : Reg)
  /-- Input, `in rC` (R96). `in` is a word of Lean's own, hence the name. -/
  | inp (c : Reg)
  /-- Load Program, `loadprog rB, rC` (R100). -/
  | loadprog (b c : Reg)
  /-- Load Value, `loadval rA, imm` (R101). `imm` is the decoder's 32-bit output `IMM` (R61); a well-formed one
  has its 7 high bits zero (R63). -/
  | loadval (a : Reg) (imm : Word)
deriving DecidableEq, Repr

end Sys2Proof
end

