-- ==== Sys2Proof/WellFormed.lean ====
section
/-! DEFINITION. WellFormed.lean: which instructions have an encoding. Register operands are in range by their type
(spec/30_encoding.md R62); the one check left is the range of the immediate (R63, R69). -/

namespace Sys2Proof

/-- The range of `IMM` is 0 to `0x01FFFFFF` (R63). -/
def immInRange (imm : Word) : Bool := imm.toNat < 2 ^ Config.immBits

/-- An instruction that some word encodes (R69, R70). -/
def Instr.wellFormed : Instr → Bool
  | .cmov _ _ _ => true
  | .load _ _ _ => true
  | .store _ _ _ => true
  | .add _ _ _ => true
  | .mul _ _ _ => true
  | .div _ _ _ => true
  | .nand _ _ _ => true
  | .halt => true
  | .map _ _ => true
  | .unmap _ => true
  | .out _ => true
  | .inp _ => true
  | .loadprog _ _ => true
  | .loadval _ imm => immInRange imm

end Sys2Proof
end

