-- ==== Sys2Proof/Decode.lean ====
section
/-! DEFINITION. Decode.lean: the instruction decoder and the encoder (spec/30_encoding.md).

`fields` is the decoder of R61: pure, total, extracting every field of both forms from every word. `decode` adds
the handler select of R72, with the illegal opcodes 14 and 15 rejected by name (R67); the dispatcher of the step
turns that rejection into the fault `InvalidOpcode`. The opcode numbers are the spec's decision D1 (log 9), the
ignored bits its decision D2 (log 10). -/

namespace Sys2Proof

/-- The outputs of the decoder (R61). -/
structure Fields where
  /-- `iw[31:28]` -/
  op : BitVec 4
  /-- `iw[8:6]`, register A of the three-register form -/
  a : Reg
  /-- `iw[5:3]`, register B -/
  b : Reg
  /-- `iw[2:0]`, register C -/
  c : Reg
  /-- `iw[27:25]`, register A of the Load-Value form -/
  la : Reg
  /-- `zext_32(iw[24:0])` -/
  imm : Word
  /-- `op <= 13` (decision D3) -/
  opValid : Bool
deriving DecidableEq, Repr

/-- Why a word is no instruction. -/
inductive DecodeError where
  /-- The opcode is 14 or 15 and no handler is defined for it (R67). -/
  | invalidOpcode (op : BitVec 4)
deriving DecidableEq, Repr

/-- `v[hi:lo]` for a 3-bit register field, from its low bit `lo` (R9, R61). -/
def regField (w : Word) (lo : Nat) : Reg := (w.extractLsb' lo 3).toFin

/-- `iw[31:28]` (R60). -/
def opField (w : Word) : BitVec 4 := w.extractLsb' 28 4

/-- `zext_32(iw[24:0])` (R63). -/
def immField (w : Word) : Word := (w.extractLsb' 0 25).setWidth 32

/-- The decoder of R61. -/
def fields (w : Word) : Fields :=
  { op := opField w
    a := regField w 6
    b := regField w 3
    c := regField w 0
    la := regField w 25
    imm := immField w
    opValid := (opField w).toNat < Config.numOps }

/-- The handler select of R72 on decoded fields, each opcode with the fields its handler takes (R64, R73, R77). -/
def select (d : Fields) : Except DecodeError Instr :=
  match d.op.toNat with
  | 0 => .ok (.cmov d.a d.b d.c)
  | 1 => .ok (.load d.a d.b d.c)
  | 2 => .ok (.store d.a d.b d.c)
  | 3 => .ok (.add d.a d.b d.c)
  | 4 => .ok (.mul d.a d.b d.c)
  | 5 => .ok (.div d.a d.b d.c)
  | 6 => .ok (.nand d.a d.b d.c)
  | 7 => .ok .halt
  | 8 => .ok (.map d.b d.c)
  | 9 => .ok (.unmap d.c)
  | 10 => .ok (.out d.c)
  | 11 => .ok (.inp d.c)
  | 12 => .ok (.loadprog d.b d.c)
  | 13 => .ok (.loadval d.la d.imm)
  | _ => .error (.invalidOpcode d.op)

/-- The instruction a word stands for, or the name of the rejection (R61, R67, R72). -/
def decode (w : Word) : Except DecodeError Instr := select (fields w)

/-- The instruction the decoder reads from an opcode-table row's bits: one 32-bit word (R57), the bits above
`nbits` zero. -/
def decodeTableWord (nbits w : Nat) : Option Instr :=
  match decode (BitVec.ofNat 32 (w % 2 ^ nbits)) with
  | .ok i => some i
  | .error _ => none

/-- A register index as its 3-bit field. -/
def regBits (r : Reg) : BitVec 3 := BitVec.ofNat 3 r.val

/-- `Enc3` of R69: `{op, 19 zero bits, a, b, c}`. -/
def enc3 (op : BitVec 4) (a b c : Reg) : Word := op ++ 0#19 ++ regBits a ++ regBits b ++ regBits c

/-- `EncLV` of R69: `{0b1101, a, imm}`. -/
def encLV (a : Reg) (imm : BitVec 25) : Word := 0b1101#4 ++ regBits a ++ imm

/-- The opcode number of each operation (R64, decision D1). -/
def Instr.opcode : Instr → BitVec 4
  | .cmov _ _ _ => 0#4
  | .load _ _ _ => 1#4
  | .store _ _ _ => 2#4
  | .add _ _ _ => 3#4
  | .mul _ _ _ => 4#4
  | .div _ _ _ => 5#4
  | .nand _ _ _ => 6#4
  | .halt => 7#4
  | .map _ _ => 8#4
  | .unmap _ => 9#4
  | .out _ => 10#4
  | .inp _ => 11#4
  | .loadprog _ _ => 12#4
  | .loadval _ _ => 13#4

/-- The canonical word of a well-formed instruction: every ignored bit and every unused register field is 0
(R69, R77). -/
def encode : Instr → Word
  | .cmov a b c => enc3 0#4 a b c
  | .load a b c => enc3 1#4 a b c
  | .store a b c => enc3 2#4 a b c
  | .add a b c => enc3 3#4 a b c
  | .mul a b c => enc3 4#4 a b c
  | .div a b c => enc3 5#4 a b c
  | .nand a b c => enc3 6#4 a b c
  | .halt => enc3 7#4 0 0 0
  | .map b c => enc3 8#4 0 b c
  | .unmap c => enc3 9#4 0 0 c
  | .out c => enc3 10#4 0 0 c
  | .inp c => enc3 11#4 0 0 c
  | .loadprog b c => enc3 12#4 0 b c
  | .loadval a imm => encLV a (imm.setWidth 25)

/-- Re-encoding the decoded fields of a word's form (R70, law 3). -/
def reencode (d : Fields) : Word :=
  if d.op = 13#4 then encLV d.la (d.imm.setWidth 25) else enc3 d.op d.a d.b d.c

/-- A canonical word: bits 27..9 are 0, or the opcode is 13 (R69, R70). -/
def canonical (w : Word) : Bool := opField w == 13#4 || w.extractLsb' 9 19 == 0#19

end Sys2Proof
end

