-- ==== Sys2Proof/Machine/State.lean ====
section
/-! DEFINITION. Machine/State.lean: the state of the block as plain data (spec/10_state.md), its fatal faults
(spec/60_exceptions.md), and the two ways a step of the model can stop.

The spec's six pieces of state (R12) are `regs`, `pc`, `segs`, `free`, `hw` and `status`. The other fields are the
model's own: the host's side of the two byte streams and of the `alloc_fails` draw, which the spec makes arguments
and observations of the step (R7, R32, R97, R98, R112, R115; log 3, 4, 6). -/

namespace Sys2Proof.Machine

/-- One event of the input stream (R98). -/
inductive InputEvent where
  /-- The host supplies a byte. -/
  | byte (b : Byte)
  /-- The host reports end of input. -/
  | endOfInput
deriving DecidableEq, Repr

/-- A segment: a finite sequence of words indexed from 0 (R23), held as its length and the list of its nonzero
words, offsets strictly rising. An offset below the length that is not listed reads 0, the value Map gives every
word (R42; log 7). -/
structure Segment where
  length : Nat
  cells : List (Nat × Word)
deriving DecidableEq, Repr

/-- The segment table (R23): the mapped segments by id, ids strictly rising. An id not listed is unmapped (R24). -/
abbrev Memory := List (Nat × Segment)

/-- The ten fatal faults, each with the detail that the fault record keeps (R118, R121). -/
inductive FaultCause where
  /-- Fetch at or past the end of segment 0; the detail is `len(seg(0))` (R40, R118). -/
  | pcOutOfRange (len : Nat)
  /-- The dispatcher found no handler for the opcode (R67). -/
  | invalidOpcode (op : BitVec 4)
  /-- Load or Store through an unmapped id (R38, R39). -/
  | segmentNotMapped (id off : Word)
  /-- Load or Store at or past the segment's length (R38, R39). -/
  | offsetOutOfRange (id off : Word) (len : Nat)
  /-- Divide with `x[C] = 0`; the detail is the index `C` (R88, R121). -/
  | divideByZero (c : Reg)
  /-- Unmap of segment 0 (R43). -/
  | unmapSegmentZero
  /-- Unmap of an unmapped id (R43). -/
  | unmapNotMapped (id : Word)
  /-- Load Program from an unmapped id other than 0 (R44). -/
  | loadProgramNotMapped (id : Word)
  /-- The host could not supply the storage Map asked for; the detail is the length (R42, decision D7). -/
  | allocationFailure (n : Word)
  /-- No id is left for Map; the detail is the length (R42, decision D8). -/
  | segmentIdExhausted (n : Word)
deriving DecidableEq, Repr

/-- The fault record (R29, R121). `cause` holds the spec's `reason` together with its `detail`. -/
structure FaultRecord where
  cause : FaultCause
  /-- The address in segment 0 of the word whose fetch or execution faulted. -/
  faultPc : Word
  /-- The instruction word; absent for `PcOutOfRange`. -/
  word : Option Word
deriving DecidableEq, Repr

/-- The run status (R28). -/
inductive Status where
  | running
  | halted
  | faulted (r : FaultRecord)
deriving DecidableEq, Repr

/-- The state of the block, and what the host will answer it. -/
structure State where
  /-- The general registers `x[0]` to `x[7]` (R13). -/
  regs : Vector Word 8
  /-- The program counter, a word index into segment 0 (R17). -/
  pc : Word
  /-- The segment table (R23). -/
  segs : Memory
  /-- The free-segment stack, its head the top (R25). -/
  free : List Word
  /-- The high-water mark (R26). -/
  hw : Word
  /-- The run status (R28). -/
  status : Status
  /-- MODEL'S OWN: the host's offers to the Inputs to come, one for each attempt, next first: `some e`, the event `e`
  is ready; `none`, no event is ready yet, so the Input waits and asks again (R98, R112; log 4, 5). -/
  input : List (Option InputEvent)
  /-- MODEL'S OWN: what the host offers once `input` is used up: `none`, no event, so Input waits; `some e`, the
  event `e` every time (R98, R99; log 4). -/
  inputRest : Option InputEvent
  /-- MODEL'S OWN: the input events consumed, oldest first (R115; log 3). -/
  inputLog : List InputEvent
  /-- MODEL'S OWN: the bytes written to the output stream, oldest first (R97; log 3). -/
  output : List Byte
  /-- MODEL'S OWN: the host's `alloc_fails` draws for the Maps to come, next first (R7; log 6). -/
  allocDraws : List Bool
  /-- MODEL'S OWN: the draw for every Map after `allocDraws` is used up (R7; log 6). -/
  allocRest : Bool
deriving DecidableEq, Repr

/-- Why a step stops without a next state. The machine's own fatal faults are no outcome of this kind: a step
takes them, as a next state whose status records them (R119, R120; log 1). -/
inductive Fault where
  /-- Raised by `step` alone: the machine has halted, and no step is defined from a halted state (R113). Safe. -/
  | halted
  /-- Raised by `step` alone: the machine has faulted and is not resumable (R113, R119). Safe. -/
  | faulted (r : FaultRecord)
deriving DecidableEq, Repr

/-- Why an instruction has no meaning. -/
inductive Refusal where
  /-- Raised by an arm of `exec` whose instruction has no meaning yet; no arm does. Safe. -/
  | notModelled (mnemonic : String)
deriving DecidableEq, Repr

/-- The machine right after reset (R136), with the empty program image: the loader outside the block supplies the
program, and `State.boot` is this state with an image (R137, R140; log 8). The host's fields are no part of the
spec's reset; their values are DESIGN CHOICES (log 3, 4, 6). -/
def State.reset : State :=
  { regs := Vector.replicate 8 0#32
    pc := 0#32
    segs := [(0, { length := 0, cells := [] })]
    free := []
    hw := 0#32
    status := .running
    input := []
    inputRest := some .endOfInput
    inputLog := []
    output := []
    allocDraws := []
    allocRest := false }

end Sys2Proof.Machine
end

