-- ==== Sys2Proof/Machine/Memory.lean ====
section
/-! DEFINITION. Machine/Memory.lean: tables in canonical form, and segments over them (spec/10_state.md R23,
spec/20_memory.md R33). A table is a list of key and value pairs, keys strictly rising; the segment table and the
nonzero words of one segment are both tables (log 7). -/

namespace Sys2Proof.Machine

/-- The value a table lists for a key. -/
def tableGet {α : Type} : List (Nat × α) → Nat → Option α
  | [], _ => none
  | (j, v) :: t, k => if j = k then some v else tableGet t k

/-- List `v` for the key `k`, in its place among the rising keys. -/
def tablePut {α : Type} : List (Nat × α) → Nat → α → List (Nat × α)
  | [], k, v => [(k, v)]
  | (j, u) :: t, k, v =>
    if k < j then (k, v) :: (j, u) :: t
    else if k = j then (k, v) :: t
    else (j, u) :: tablePut t k v

/-- List nothing for the key `k`. -/
def tableErase {α : Type} : List (Nat × α) → Nat → List (Nat × α)
  | [], _ => []
  | (j, u) :: t, k => if j = k then tableErase t k else (j, u) :: tableErase t k

/-- Keys strictly rising. -/
abbrev tableSorted {α : Type} (t : List (Nat × α)) : Prop := t.Pairwise (fun p q => p.1 < q.1)

/-- A segment of `n` words, each 0 (R42). -/
def Segment.zeros (n : Nat) : Segment := { length := n, cells := [] }

/-- The nonzero words of a sequence whose first word has the offset `k`. -/
def cellsFrom : Nat → List Word → List (Nat × Word)
  | _, [] => []
  | k, w :: ws => if w = 0#32 then cellsFrom (k + 1) ws else (k, w) :: cellsFrom (k + 1) ws

/-- The segment that holds exactly the given words (R23, R136). -/
def Segment.ofWords (ws : List Word) : Segment := { length := ws.length, cells := cellsFrom 0 ws }

/-- The word at an offset, whether or not the offset is below the length: what is not listed is 0 (R42; log 7). -/
def Segment.word (g : Segment) (off : Nat) : Word := (tableGet g.cells off).getD 0#32

/-- The word at an offset below the length, and nothing elsewhere (R23). -/
def Segment.read (g : Segment) (off : Nat) : Option Word :=
  if off < g.length then some (g.word off) else none

/-- Replace the word at an offset; the length is unchanged (R39). A word that becomes 0 is no longer listed. -/
def Segment.write (g : Segment) (off : Nat) (v : Word) : Segment :=
  { g with cells := if v = 0#32 then tableErase g.cells off else tablePut g.cells off v }

/-- The canonical form of one segment: nonzero words only, in rising order, below the length; and the length one
that Map or an image can give (R6, R141). -/
abbrev Segment.wf (g : Segment) : Prop :=
  tableSorted g.cells ∧ (∀ e ∈ g.cells, e.1 < g.length ∧ e.2 ≠ 0#32) ∧ g.length ≤ Config.maxSegmentWords

/-- The canonical form of the segment table: ids in rising order, 32-bit ids only, each segment canonical. -/
abbrev Memory.wf (m : Memory) : Prop :=
  tableSorted m ∧ ∀ e ∈ m, e.1 < 2 ^ 32 ∧ e.2.wf

end Sys2Proof.Machine
end

