-- ==== Sys2Proof/Machine/Ops.lean ====
section
/-! DEFINITION. Machine/Ops.lean: the named operations over registers, memory, the allocator, the byte streams and
the run status. Instructions touch State through these alone (spec/00_scope.md R10). -/

namespace Sys2Proof.Machine

/-! ### Registers and program counter -/

/-- `x[i]` (R10, R13). No register is hardwired. -/
def State.reg (s : State) (i : Reg) : Word := s.regs[i]

/-- `x[i] <- v` (R10, R14). -/
def State.setReg (s : State) (i : Reg) (v : Word) : State := { s with regs := s.regs.set i v }

/-- `pc <- v` (R10). Load Program is the only handler that does this (R18). -/
def State.setPc (s : State) (v : Word) : State := { s with pc := v }

/-- The cycle's own increment, `pc <- pc + 1 (mod 2^32)` (R106, decision D10). -/
def State.advance (s : State) : State := { s with pc := s.pc + 1#32 }

/-! ### The segment-table indexer -/

/-- `seg(id)` (R23): the segment, or nothing for an unmapped id (R24). -/
def State.segment (s : State) (id : Word) : Option Segment := tableGet s.segs id.toNat

/-- An id is mapped exactly when the segment table holds a segment for it (R24). -/
def State.mapped (s : State) (id : Word) : Bool := (s.segment id).isSome

/-- `len(seg(id))` for a mapped id. -/
def State.segLength (s : State) (id : Word) : Option Nat := (s.segment id).map Segment.length

/-- The word at `(id, off)`, or nothing where no such location exists (R33, R36). -/
def State.wordAt (s : State) (id off : Word) : Option Word :=
  (s.segment id).bind fun g => g.read off.toNat

/-- `seg(id) <- some g`. -/
def State.setSegment (s : State) (id : Word) (g : Segment) : State :=
  { s with segs := tablePut s.segs id.toNat g }

/-- `seg(id) <- none`. -/
def State.dropSegment (s : State) (id : Word) : State :=
  { s with segs := tableErase s.segs id.toNat }

/-- `SegRead(id, off)` (R38): mapped is checked before in-bounds (R37). -/
def State.segRead (s : State) (id off : Word) : Except FaultCause Word :=
  match s.segment id with
  | none => .error (.segmentNotMapped id off)
  | some g =>
    if g.length ≤ off.toNat then .error (.offsetOutOfRange id off g.length)
    else .ok (g.word off.toNat)

/-- `SegWrite(id, off, v)` (R39). -/
def State.segWrite (s : State) (id off v : Word) : Except FaultCause State :=
  match s.segment id with
  | none => .error (.segmentNotMapped id off)
  | some g =>
    if g.length ≤ off.toNat then .error (.offsetOutOfRange id off g.length)
    else .ok (s.setSegment id (g.write off.toNat v))

/-- `Fetch(pc)` (R40). Segment 0 is always mapped (R27); in a state that no run reaches, where it is not, its
length counts as 0 (log 13). -/
def State.fetch (s : State) : Except FaultCause Word :=
  match s.wordAt 0#32 s.pc with
  | some w => .ok w
  | none => .error (.pcOutOfRange ((s.segLength 0#32).getD 0))

/-! ### The allocator -/

/-- The host's `alloc_fails` draw for the next Map (R7, decision D7; log 6). -/
def State.allocFails (s : State) : Bool := s.allocDraws.headD s.allocRest

/-- The draw is used. -/
def State.takeDraw (s : State) : State := { s with allocDraws := s.allocDraws.tail }

/-- No id is left to assign: the free stack is empty and the next fresh id would wrap to 0 (R42, decision D8). -/
def State.idsExhausted (s : State) : Bool := s.free.isEmpty && s.hw == 0xFFFFFFFF#32

/-- The id the next Map assigns: the top of the free stack, or else the next fresh one (R42, R94). -/
def State.nextId (s : State) : Word := s.free.headD (s.hw + 1#32)

/-- Take that id: pop the free stack, or raise the high-water mark (R42). -/
def State.takeId (s : State) : State :=
  match s.free with
  | _ :: rest => { s with free := rest }
  | [] => { s with hw := s.hw + 1#32 }

/-- `SegAlloc(n)` (R42): the new id, and the state with `n` zero words mapped at it. -/
def State.segAlloc (s : State) (n : Word) : Except FaultCause (Word × State) :=
  if s.idsExhausted then .error (.segmentIdExhausted n)
  else if s.allocFails then .error (.allocationFailure n)
  else .ok (s.nextId, s.takeDraw.takeId.setSegment s.nextId (Segment.zeros n.toNat))

/-- Push an id on the free-segment stack (R43). -/
def State.pushFree (s : State) (id : Word) : State := { s with free := id :: s.free }

/-- `SegFree(id)` (R43). -/
def State.segFree (s : State) (id : Word) : Except FaultCause State :=
  if id = 0#32 then .error .unmapSegmentZero
  else match s.segment id with
    | none => .error (.unmapNotMapped id)
    | some _ => .ok ((s.dropSegment id).pushFree id)

/-- `SegReplace0(id)` (R44), used only with `id != 0`. The copy shares nothing with its source: both are data. -/
def State.segReplace0 (s : State) (id : Word) : Except FaultCause State :=
  match s.segment id with
  | none => .error (.loadProgramNotMapped id)
  | some g => .ok (s.setSegment 0#32 g)

/-! ### The host byte streams -/

/-- `Out(b)` (R10, R97): one byte to the end of the output stream; it never waits and never fails. -/
def State.out (s : State) (b : Byte) : State := { s with output := s.output ++ [b] }

/-- The `input_offer` of R112: the event the host has ready now, if any (R98, R99; log 4). -/
def State.inputOffer (s : State) : Option InputEvent := s.input.headD s.inputRest

/-- `In()` takes exactly one event (R98). -/
def State.takeInput (s : State) (e : InputEvent) : State :=
  { s with input := s.input.tail, inputLog := s.inputLog ++ [e] }

/-- The outcome `Wait` of R112: the Input has not started, so even the fetch increment is undone and all of the
block's state is as before the step (R111, R135). The host's offer of nothing is past: the next attempt sees its next
offer (log 5). -/
def State.wait (s : State) : State := { s with pc := s.pc - 1#32, input := s.input.tail }

/-- What the host does between two steps to wake a waiting machine: it answers the pending `In()` with the event `e`,
in place of its next offer (R98, R104, R135; log 5). No step of the machine does this. -/
def State.answerInput (s : State) (e : InputEvent) : State := { s with input := some e :: s.input.tail }

/-! ### Halt and fatal faults -/

/-- `status <- Halted` (R91). -/
def State.halt (s : State) : State := { s with status := .halted }

/-- `raise F(detail)`, the one exception primitive (R10, R119): the status records the fault and nothing else
changes. There is no vector, no mode change, no saved register but the record (R125), and no return (R126). -/
def State.takeFault (s : State) (r : FaultRecord) : State := { s with status := .faulted r }

/-- The address of the word being executed. While a handler runs, `pc` holds it plus one (R108; log 2). -/
def State.fetchPc (s : State) : Word := s.pc - 1#32

/-- The fault of a handler or of the dispatcher. `pc` stays at `fault_pc + 1` (R120, decision D5). The word is the
one segment 0 holds at `fault_pc`: a faulting step has written nothing, so it is the word fetched (R111, R145;
log 2). -/
def State.raise (s : State) (c : FaultCause) : State :=
  s.takeFault { cause := c, faultPc := s.fetchPc, word := s.wordAt 0#32 s.fetchPc }

/-- The fault of a fetch: `pc` is not incremented and there is no word (R106, R120, R121). -/
def State.raiseAtFetch (s : State) (c : FaultCause) : State :=
  s.takeFault { cause := c, faultPc := s.pc, word := none }

/-- A handler commits all of its writes or raises its fault with none of them (R111). -/
def State.commit (s : State) : Except FaultCause State → Host.Outcome State Fault Refusal
  | .ok t => .next t
  | .error c => .next (s.raise c)

end Sys2Proof.Machine
end

