-- ==== Sys2Proof/Machine/Operands.lean ====
section
/-! DEFINITION. Machine/Operands.lean: the operand forms of the ISA beyond a plain register (`State.reg`,
`State.setReg`) and the immediate `IMM`, which the decoder zero-extends (spec/30_encoding.md R63). -/

namespace Sys2Proof.Machine

/-- `v[7:0]`, what Output writes (R95). -/
def lowByte (v : Word) : Byte := v.extractLsb' 0 8

/-- What Input writes to its register for an event: the byte zero-extended, or the end-of-input sentinel (R96). -/
def inputValue : InputEvent → Word
  | .byte b => b.setWidth 32
  | .endOfInput => 0xFFFFFFFF#32

/-- Unsigned division truncated toward zero (R85), for a divisor that is not 0. -/
def quotient (n d : Word) : Word := BitVec.ofNat 32 (n.toNat / d.toNat)

/-- The low 32 bits of an exact result (R84). -/
def wrap (n : Nat) : Word := BitVec.ofNat 32 n

end Sys2Proof.Machine
end

