-- ==== Sys2Proof/Machine/ArithmeticLogic.lean ====
section
/-! DEFINITION. Machine/ArithmeticLogic.lean: Add, Multiply, Divide, Bitwise NAND (spec/41_arithmetic_logic.md).
All values are unsigned 32-bit numbers (R83). -/

namespace Sys2Proof.Machine

/-- Add (R86): the exact sum modulo `2^32` (R84). -/
def execAdd (a b c : Reg) (s : State) : Host.Outcome State Fault Refusal :=
  .next (s.setReg a (wrap ((s.reg b).toNat + (s.reg c).toNat)))

/-- Multiply (R87): the exact product modulo `2^32` (R84). -/
def execMul (a b c : Reg) (s : State) : Host.Outcome State Fault Refusal :=
  .next (s.setReg a (wrap ((s.reg b).toNat * (s.reg c).toNat)))

/-- Divide (R88): `DivideByZero` on a zero divisor, else the truncated quotient (R85). -/
def execDiv (a b c : Reg) (s : State) : Host.Outcome State Fault Refusal :=
  s.commit (if s.reg c = 0#32 then .error (.divideByZero c) else .ok (s.setReg a (quotient (s.reg b) (s.reg c))))

/-- Bitwise NAND (R89). -/
def execNand (a b c : Reg) (s : State) : Host.Outcome State Fault Refusal :=
  .next (s.setReg a (~~~ (s.reg b &&& s.reg c)))

end Sys2Proof.Machine
end

