-- ==== Sys2Proof/Machine/HaltMapUnmap.lean ====
section
/-! DEFINITION. Machine/HaltMapUnmap.lean: Halt, Map Segment, Unmap Segment (spec/42_halt_map_unmap.md). -/

namespace Sys2Proof.Machine

/-- Halt (R91). -/
def execHalt (s : State) : Host.Outcome State Fault Refusal := .next s.halt

/-- Map Segment (R92): the length is read from the old `x[C]`, then `x[B]` takes the new id. -/
def execMap (b c : Reg) (s : State) : Host.Outcome State Fault Refusal :=
  s.commit ((s.segAlloc (s.reg c)).map fun p => p.2.setReg b p.1)

/-- Unmap Segment (R93). -/
def execUnmap (c : Reg) (s : State) : Host.Outcome State Fault Refusal :=
  s.commit (s.segFree (s.reg c))

end Sys2Proof.Machine
end

