-- ==== Sys2Proof/Machine/InputOutput.lean ====
section
/-! DEFINITION. Machine/InputOutput.lean: Output and Input (spec/43_io.md). -/

namespace Sys2Proof.Machine

/-- Output (R95): the low byte of `x[C]`, never a fault. -/
def execOut (c : Reg) (s : State) : Host.Outcome State Fault Refusal :=
  .next (s.out (lowByte (s.reg c)))

/-- Input (R96): one event of the host, or the wait of R98 at an attempt for which the host has none ready. -/
def execInp (c : Reg) (s : State) : Host.Outcome State Fault Refusal :=
  .next (match s.inputOffer with
    | some e => (s.takeInput e).setReg c (inputValue e)
    | none => s.wait)

end Sys2Proof.Machine
end

