-- ==== Sys2Proof/Machine/LoadProgramValue.lean ====
section
/-! DEFINITION. Machine/LoadProgramValue.lean: Load Program and Load Value (spec/44_loadprogram_loadvalue.md). -/

namespace Sys2Proof.Machine

/-- Load Program (R100). With `x[B] = 0` it is a jump; otherwise segment 0 becomes a copy of segment `x[B]`. The
target is not checked (decision D9; log 21). On the fault neither segment 0 nor `pc` changes. -/
def execLoadprog (b c : Reg) (s : State) : Host.Outcome State Fault Refusal :=
  s.commit ((if s.reg b = 0#32 then .ok s else s.segReplace0 (s.reg b)).map fun t => t.setPc (s.reg c))

/-- Load Value (R101). -/
def execLoadval (a : Reg) (imm : Word) (s : State) : Host.Outcome State Fault Refusal :=
  .next (s.setReg a imm)

end Sys2Proof.Machine
end

