-- ==== Sys2Proof/Machine/Flags.lean ====
section
/-! DEFINITION. Machine/Flags.lean: the block has no flags, no condition codes and no predicates
(spec/10_state.md R21). The one condition the ISA tests is Conditional Move's, on a general register. -/

namespace Sys2Proof.Machine

/-- `x[C] != 0`, the condition of Conditional Move (R21, R80). -/
def State.condition (s : State) (c : Reg) : Bool := s.reg c != 0#32

end Sys2Proof.Machine
end

