-- ==== Sys2Proof/Machine/MoveLoadStore.lean ====
section
/-! DEFINITION. Machine/MoveLoadStore.lean: Conditional Move, Segmented Load, Segmented Store
(spec/40_move_load_store.md). Each meaning takes the state in which `pc` already holds the fetch address plus one
(R11, R108), and reads its registers from that state, before any write (R10). -/

namespace Sys2Proof.Machine

/-- Conditional Move (R80). -/
def execCmov (a b c : Reg) (s : State) : Host.Outcome State Fault Refusal :=
  .next (if s.condition c then s.setReg a (s.reg b) else s)

/-- Segmented Load (R81). -/
def execLoad (a b c : Reg) (s : State) : Host.Outcome State Fault Refusal :=
  s.commit ((s.segRead (s.reg b) (s.reg c)).map fun v => s.setReg a v)

/-- Segmented Store (R82). -/
def execStore (a b c : Reg) (s : State) : Host.Outcome State Fault Refusal :=
  s.commit (s.segWrite (s.reg a) (s.reg b) (s.reg c))

end Sys2Proof.Machine
end

