-- ==== Sys2Proof/Machine/Loader.lean ====
section
/-! DEFINITION. Machine/Loader.lean: what the loader outside the block does before the first step
(spec/70_reset_and_hazards.md R136, R137, R140; spec/20_memory.md R45; log 8, 17). -/

namespace Sys2Proof.Machine

/-- `reset(img)` (R136): the reset state with the program image in segment 0. -/
def State.boot (img : List Word) : State := State.reset.setSegment 0#32 (Segment.ofWords img)

/-- An image R141 allows: at least one word, at most `2^32 - 1`. -/
def imageLegal (img : List Word) : Bool := !img.isEmpty && img.length ≤ Config.maxSegmentWords

/-- The words of an image's bytes, big-endian: `{b0, b1, b2, b3}` with `b0` in bits 31..24 (R45, R79). A byte count
that is no multiple of 4 gives no image (decision D23; log 17). -/
def imageOfBytes : List Byte → Option (List Word)
  | [] => some []
  | b0 :: b1 :: b2 :: b3 :: rest => (imageOfBytes rest).map fun ws => (b0 ++ b1 ++ b2 ++ b3 : Word) :: ws
  | _ => none

/-- The word `w` at `pc` of segment 0, and the machine running. Where segment 0 is too short it is lengthened just
enough; every other word is as before (log 8). -/
def State.placeWord (s : State) (w : Word) : State :=
  let g := (s.segment 0#32).getD (Segment.zeros 0)
  { s.setSegment 0#32 (Segment.write { g with length := max g.length (s.pc.toNat + 1) } s.pc.toNat w) with
    status := .running }

end Sys2Proof.Machine
end

