-- ==== Sys2Proof/Machine/Step.lean ====
section
/-! DEFINITION. Machine/Step.lean: the fetch-decode-execute cycle (spec/45_execution_cycle.md R104 to R113). -/

namespace Sys2Proof.Machine

/-- One step of a running machine, `step` of R112: fetch, increment, decode, dispatch. -/
def cycle (s : State) : Host.Outcome State Fault Refusal :=
  match s.fetch with
  | .error c => .next (s.raiseAtFetch c)
  | .ok w =>
    match decode w with
    | .error (.invalidOpcode op) => .next (s.advance.raise (.invalidOpcode op))
    | .ok i => exec i s.advance

/-- One step. No step is defined from a halted or a faulted state (R113; log 1). -/
def step (s : State) : Host.Outcome State Fault Refusal :=
  match s.status with
  | .running => cycle s
  | .halted => .fault .halted
  | .faulted r => .fault (.faulted r)

/-- `s` with one instruction placed where the next step fetches: the word at `pc` of segment 0 (R40), the segment
made long enough to hold it, and the machine running (R105). It stands for the external load of a program
(R137; log 8). -/
def State.withFetchWord (s : State) (nbits w : Nat) : State :=
  s.placeWord (BitVec.ofNat 32 (w % 2 ^ nbits))

end Sys2Proof.Machine
end

