-- ==== Sys2Proof/Machine/Report.lean ====
section
/-! DEFINITION. Machine/Report.lean: what the host sees of a run (spec/45_execution_cycle.md R115,
spec/60_exceptions.md R118, R130). -/

namespace Sys2Proof.Machine

/-- The numeric code of a fault reason (R118, decision D4). -/
def FaultCause.code : FaultCause → Nat
  | .pcOutOfRange _ => 1
  | .invalidOpcode _ => 2
  | .segmentNotMapped _ _ => 3
  | .offsetOutOfRange _ _ _ => 4
  | .divideByZero _ => 5
  | .unmapSegmentZero => 6
  | .unmapNotMapped _ => 7
  | .loadProgramNotMapped _ => 8
  | .allocationFailure _ => 9
  | .segmentIdExhausted _ => 10

/-- The indication the host is given at the end of a run (R130). The numeric process exit codes are not
specified. -/
inductive ExitIndication where
  | success
  | failure
deriving DecidableEq, Repr

/-- `Halted` is a success indication, any `Faulted` status a failure indication (R130). -/
def statusExit : Status → Option ExitIndication
  | .running => none
  | .halted => some .success
  | .faulted _ => some .failure

/-- The three ways a run can be observed (R115). -/
structure Observation where
  output : List Byte
  exit : Option ExitIndication
  consumed : List InputEvent
deriving DecidableEq, Repr

/-- What the host has observed so far (R115). -/
def State.observe (s : State) : Observation :=
  { output := s.output, exit := statusExit s.status, consumed := s.inputLog }

end Sys2Proof.Machine
end

