-- ==== Sys2Proof/Safety.lean ====
section
/-! DEFINITION. Safety.lean: the terms in which statements about the machine are written: what an instruction
leaves unchanged, what taking a fault looks like from outside, and the invariants of the state. They read the state
through its observers (`reg`, `segLength`, `wordAt`), not through its representation. -/

namespace Sys2Proof.Machine

/-- Every general register is unchanged. -/
def SameRegs (s t : State) : Prop := ∀ r, t.reg r = s.reg r

/-- Every general register but `r` is unchanged. -/
def SameRegsBut (r : Reg) (s t : State) : Prop := ∀ q, q ≠ r → t.reg q = s.reg q

/-- Every segment but `id` is mapped or not as before, with the length and the words it had. -/
def SameMemoryBut (id : Word) (s t : State) : Prop :=
  ∀ j, j ≠ id → t.segLength j = s.segLength j ∧ ∀ off, t.wordAt j off = s.wordAt j off

/-- Every id is mapped or not as before, and every segment has the length and the words it had. -/
def SameMemory (s t : State) : Prop :=
  ∀ j, t.segLength j = s.segLength j ∧ ∀ off, t.wordAt j off = s.wordAt j off

/-- As `SameMemory`, except for the one word at `(id, off)`. -/
def SameMemoryButWord (id off : Word) (s t : State) : Prop :=
  ∀ j, t.segLength j = s.segLength j ∧ ∀ k, (j, k) ≠ (id, off) → t.wordAt j k = s.wordAt j k

/-- The free-segment stack and the high-water mark are unchanged. -/
def SameAllocator (s t : State) : Prop := t.free = s.free ∧ t.hw = s.hw

/-- The host's offers of input, what follows them, and the record of the events consumed are unchanged. -/
def SameInput (s t : State) : Prop :=
  t.input = s.input ∧ t.inputRest = s.inputRest ∧ t.inputLog = s.inputLog

/-- The host's allocation draws are unchanged. -/
def SameDraws (s t : State) : Prop := t.allocDraws = s.allocDraws ∧ t.allocRest = s.allocRest

/-- No stream and no draw of the host is touched. -/
def SameHost (s t : State) : Prop := SameInput s t ∧ t.output = s.output ∧ SameDraws s t

/-- Everything but the general registers and `pc` is unchanged. -/
def SameBeyondRegs (s t : State) : Prop :=
  SameMemory s t ∧ SameAllocator s t ∧ t.status = s.status ∧ SameHost s t

/-- The whole state but `status` is as it was in `s`, `pc` included. -/
def SameButStatus (s t : State) : Prop :=
  SameRegs s t ∧ t.pc = s.pc ∧ SameMemory s t ∧ SameAllocator s t ∧ SameHost s t

/-- The whole state but `status` and `pc` is as it was in `s`. -/
def SameButStatusAndPc (s t : State) : Prop :=
  SameRegs s t ∧ SameMemory s t ∧ SameAllocator s t ∧ SameHost s t

/-- An outcome of a handler run on `s` takes the fatal fault `c`: the status records it, and the handler has written
nothing (R111, R119). -/
def TakesFault (c : FaultCause) (s : State) (o : Host.Outcome State Fault Refusal) : Prop :=
  ∃ t r, o = .next t ∧ t.status = .faulted r ∧ r.cause = c ∧ SameButStatus s t

/-- The id invariant of R27, with the two facts of R25: segment 0 is mapped; each id up to the high-water mark is
either mapped or on the free stack, not both; no id above it is either; the stack holds no id twice. -/
def IdInvariant (s : State) : Prop :=
  s.mapped 0#32 = true ∧
  (∀ id : Word, id ≤ s.hw → (s.mapped id = true ↔ id ∉ s.free)) ∧
  (∀ id : Word, s.hw < id → s.mapped id = false ∧ id ∉ s.free) ∧
  s.free.Nodup

/-- The memory's canonical form (log 7). -/
def MemoryInvariant (s : State) : Prop := Memory.wf s.segs

/-- The machine is running, and the word it fetches next is an Input for which the host offers no event (R98). -/
def Waiting (s : State) : Prop :=
  s.status = .running ∧ s.inputOffer = none ∧
  ∃ w c, s.wordAt 0#32 s.pc = some w ∧ decode w = .ok (.inp c)

/-- `n` steps, each answering a next state, lead from the first state to the second (R113, R114). -/
def Steps : Nat → State → State → Prop
  | 0, s, t => t = s
  | n + 1, s, t => ∃ u, step s = .next u ∧ Steps n u t

end Sys2Proof.Machine
end

