-- ==== Sys2Proof/Certificates/Slice0/Obligations.lean ====
section
/-! DEFINITION. Certificates/Slice0/Obligations.lean: the statements for the provers. They read the state through
its observers (`reg`, `segLength`, `wordAt`, the fields) and the terms of Safety.lean. A docstring names the rule of
spec/ a statement formalises, or, where the statement is derived, the spec's decision or the log entry it rests on. -/

open Sys2Proof Sys2Proof.Machine

/-! ### Encoding -/

/-- R61: the decoder's outputs, as numbers: each field of both forms from every word, and `op_valid`. Derived:
`op_valid` is the spec's decision D3 and the port list its decision D13. -/
def Obligations.FieldsAreTheSpecBitSlices : Prop :=
  ∀ w : Word,
    (fields w).op.toNat = w.toNat / 2 ^ 28 ∧
    (fields w).a.val = w.toNat / 2 ^ 6 % 2 ^ 3 ∧
    (fields w).b.val = w.toNat / 2 ^ 3 % 2 ^ 3 ∧
    (fields w).c.val = w.toNat % 2 ^ 3 ∧
    (fields w).la.val = w.toNat / 2 ^ 25 % 2 ^ 3 ∧
    (fields w).imm.toNat = w.toNat % 2 ^ 25 ∧
    ((fields w).opValid = true ↔ w.toNat / 2 ^ 28 ≤ 13)

/-- R70, its four laws: encode then decode on every field value of both forms; decode then re-encode exactly on the
canonical words; no encoding for the opcodes 14 and 15. -/
def Obligations.FieldsRoundTripOnCanonicalWords : Prop :=
  (∀ (op : BitVec 4) (a b c : Reg), op.toNat ≤ 12 →
    (fields (enc3 op a b c)).op = op ∧ (fields (enc3 op a b c)).a = a ∧
    (fields (enc3 op a b c)).b = b ∧ (fields (enc3 op a b c)).c = c) ∧
  (∀ (a : Reg) (imm : BitVec 25),
    (fields (encLV a imm)).op = 13#4 ∧ (fields (encLV a imm)).la = a ∧
    (fields (encLV a imm)).imm.toNat = imm.toNat) ∧
  (∀ w : Word, (fields w).opValid = true →
    (reencode (fields w) = w ↔ w.toNat / 2 ^ 28 = 13 ∨ w.toNat / 2 ^ 9 % 2 ^ 19 = 0)) ∧
  (∀ w : Word, 14 ≤ w.toNat / 2 ^ 28 → ∀ i : Instr, i.wellFormed = true → encode i ≠ w)

/-- Headline of kind (a), decode and encode agree: no operand bit of any instruction is dropped. Derived from R69 and
R70; the opcode numbers are the spec's decision D1 (log 9). -/
def Obligations.EncodedInstructionsDecodeToThemselves : Prop :=
  ∀ i : Instr, i.wellFormed = true → decode (encode i) = .ok i

/-- R67, R68: a word is one of the fourteen instructions exactly when its opcode is at most 13, and then a well-formed
one with that opcode; otherwise it is rejected by its opcode. Derived: R67 rests on decision D3, R68 on inference. -/
def Obligations.WordsAreInstructionsExactlyBelowOpcode14 : Prop :=
  ∀ w : Word,
    (w.toNat / 2 ^ 28 ≤ 13 →
      ∃ i, decode w = .ok i ∧ i.wellFormed = true ∧ i.opcode.toNat = w.toNat / 2 ^ 28) ∧
    (14 ≤ w.toNat / 2 ^ 28 → ∃ op : BitVec 4, op.toNat = w.toNat / 2 ^ 28 ∧ decode w = .error (.invalidOpcode op))

/-- R66: bits 27..9 of the three-register form, and the register fields an opcode does not use (R73), do not change
what a word decodes to. Derived: that they are ignored is the spec's decision D2 (log 10). -/
def Obligations.IgnoredBitsDoNotChangeDecoding : Prop :=
  ∀ w v : Word, w.toNat / 2 ^ 28 = v.toNat / 2 ^ 28 →
    (w.toNat / 2 ^ 28 ≤ 12 → w.toNat % 2 ^ 9 = v.toNat % 2 ^ 9 → decode w = decode v) ∧
    (w.toNat / 2 ^ 28 = 7 → decode w = decode v) ∧
    (w.toNat / 2 ^ 28 = 8 ∨ w.toNat / 2 ^ 28 = 12 → w.toNat % 2 ^ 6 = v.toNat % 2 ^ 6 → decode w = decode v) ∧
    (w.toNat / 2 ^ 28 = 9 ∨ w.toNat / 2 ^ 28 = 10 ∨ w.toNat / 2 ^ 28 = 11 →
      w.toNat % 2 ^ 3 = v.toNat % 2 ^ 3 → decode w = decode v)

/-- Words the spec writes out (R66, R69, R80 to R101, and 95_test_vectors.md) decode to the instructions it says they
are. A sanity statement. -/
def Obligations.SpecWordsDecode : Prop :=
  decode 0x00000053#32 = .ok (.cmov 1 2 3) ∧
  decode 0x1000012E#32 = .ok (.load 4 5 6) ∧
  decode 0x20000019#32 = .ok (.store 0 3 1) ∧
  decode 0x30FFFE53#32 = .ok (.add 1 2 3) ∧
  decode 0x40000053#32 = .ok (.mul 1 2 3) ∧
  decode 0x50000088#32 = .ok (.div 2 1 0) ∧
  decode 0x600001C0#32 = .ok (.nand 7 0 0) ∧
  decode 0x7ABCDEF0#32 = .ok .halt ∧
  decode 0x80000013#32 = .ok (.map 2 3) ∧
  decode 0x90000002#32 = .ok (.unmap 2) ∧
  decode 0xA0000006#32 = .ok (.out 6) ∧
  decode 0xB0000005#32 = .ok (.inp 5) ∧
  decode 0xC0000010#32 = .ok (.loadprog 2 0) ∧
  decode 0xD2000001#32 = .ok (.loadval 1 1#32) ∧
  decode 0xDFFFFFFF#32 = .ok (.loadval 7 0x01FFFFFF#32) ∧
  decode 0xE0000000#32 = .error (.invalidOpcode 14#4) ∧
  decode 0xF1234567#32 = .error (.invalidOpcode 15#4)

/-! ### Reset -/

/-- R16 and R20: after reset every general register is 0 and `pc` is 0, whatever the image. Derived: that
`State.reset` is the reset with the empty image is the model's choice (log 8). -/
def Obligations.ResetRegistersAndPcAreZero : Prop :=
  State.reset = State.boot [] ∧ ∀ img : List Word, (∀ r, (State.boot img).reg r = 0#32) ∧ (State.boot img).pc = 0#32

/-- R136: reset with an image leaves segment 0 holding it word for word, every other id unmapped, the free stack
empty, `hw` 0 and the machine running. Derived: `hw` is the spec's derivation (R26; log 11) and `status` its decision
D5 (log 12). -/
def Obligations.ResetLoadsTheImage : Prop :=
  ∀ img : List Word,
    (State.boot img).segLength 0#32 = some img.length ∧
    (∀ off : Word, (State.boot img).wordAt 0#32 off = img[off.toNat]?) ∧
    (∀ id : Word, id ≠ 0#32 → (State.boot img).mapped id = false) ∧
    (State.boot img).free = [] ∧ (State.boot img).hw = 0#32 ∧ (State.boot img).status = .running

/-- R45, R79: an image's bytes become its words big-endian, four bytes a word; every byte count that is a multiple of
4 gives an image, no bytes the empty one. Derived: the conversion is the external loader's, and that another byte
count gives no image is the model's choice (log 17). -/
def Obligations.ImageBytesAreBigEndian : Prop :=
  imageOfBytes [] = some [] ∧
  (∀ (b0 b1 b2 b3 : Byte) (rest : List Byte) (ws : List Word), imageOfBytes rest = some ws →
    ∃ w : Word, imageOfBytes (b0 :: b1 :: b2 :: b3 :: rest) = some (w :: ws) ∧
      w.toNat = b0.toNat * 2 ^ 24 + b1.toNat * 2 ^ 16 + b2.toNat * 2 ^ 8 + b3.toNat) ∧
  (∀ bytes : List Byte, bytes.length % 4 = 0 →
    ∃ ws, imageOfBytes bytes = some ws ∧ bytes.length = 4 * ws.length) ∧
  (∀ bytes : List Byte, bytes.length % 4 ≠ 0 → imageOfBytes bytes = none)

/-! ### Invariants -/

/-- Headline of kind (b), R27: every step from a state that meets the id invariant gives a state that meets it. Each
id up to `hw` stays either mapped or on the free stack, never both; no id above `hw` is either; segment 0 stays
mapped. Derived: R27 is the spec's own derivation. -/
def Obligations.EveryStepKeepsTheIdInvariant : Prop :=
  ∀ s t : State, IdInvariant s → step s = .next t → IdInvariant t

/-- Headline of kind (b): every step keeps the memory's canonical form (ids and offsets in rising order, nonzero words
below the length, no segment longer than `2^32 - 1` words, R6). Derived: the form is the model's (log 7). -/
def Obligations.EveryStepKeepsTheMemoryForm : Prop :=
  ∀ s t : State, MemoryInvariant s → step s = .next t → MemoryInvariant t

/-- Reset meets both invariants, with any image of a legal length (R141) and in `State.reset`. Derived. -/
def Obligations.ResetMeetsTheInvariants : Prop :=
  (IdInvariant State.reset ∧ MemoryInvariant State.reset) ∧
  ∀ img : List Word, img.length ≤ 2 ^ 32 - 1 → IdInvariant (State.boot img) ∧ MemoryInvariant (State.boot img)

/-! ### The step -/

/-- R105 to R109: where the word at `pc` decodes to an instruction, the step is that instruction's meaning run on the
state whose `pc` is one further, everything else as before. Derived: the wrap of the increment is decision D10. -/
def Obligations.StepRunsTheDecodedInstruction : Prop :=
  ∀ (s : State) (w : Word) (i : Instr), s.status = .running → s.wordAt 0#32 s.pc = some w → decode w = .ok i →
    i.wellFormed = true ∧ step s = exec i s.advance ∧ s.advance.pc = s.pc + 1#32 ∧
    SameRegs s s.advance ∧ SameBeyondRegs s s.advance

/-- R40: `Fetch` answers the word of segment 0 at `pc`, or `PcOutOfRange` at or past its end, and no other fault.
Derived: the length in the fault is decision D4 (R121), and that a fetch raises no other fault even where segment 0 is
unmapped, a state that no run reaches (R27), is the model's inference (log 13). -/
def Obligations.FetchReadsTheWordAtPc : Prop :=
  (∀ (s : State) (n : Nat), s.segLength 0#32 = some n →
    (n ≤ s.pc.toNat → s.fetch = .error (.pcOutOfRange n)) ∧
    (s.pc.toNat < n → ∃ w, s.wordAt 0#32 s.pc = some w ∧ s.fetch = .ok w)) ∧
  (∀ (s : State) (c : FaultCause), s.fetch = .error c → ∃ n, c = .pcOutOfRange n)

/-- R40, R106, R120, R121: a fetch at or past the end of segment 0 faults, with `pc` not incremented and no word in
the record. Derived: the record is decision D4, `pc` after it decision D5 (log 12). -/
def Obligations.FetchPastTheEndFaults : Prop :=
  ∀ (s : State) (n : Nat), s.status = .running → s.segLength 0#32 = some n → n ≤ s.pc.toNat →
    ∃ t, step s = .next t ∧
      t.status = .faulted { cause := .pcOutOfRange n, faultPc := s.pc, word := none } ∧ SameButStatus s t

/-- R67: a word with opcode 14 or 15 faults at dispatch: no handler runs and nothing but the increment and `status`
changes. Derived: R67 rests on decision D3, the record on D4. -/
def Obligations.IllegalOpcodeFaults : Prop :=
  ∀ (s : State) (w : Word), s.status = .running → s.wordAt 0#32 s.pc = some w → 14 ≤ w.toNat / 2 ^ 28 →
    (fields w).opValid = false ∧
    ∃ t, step s = .next t ∧
      t.status = .faulted { cause := .invalidOpcode (fields w).op, faultPc := s.pc, word := some w } ∧
      t.pc = s.pc + 1#32 ∧ SameButStatusAndPc s t

/-- R119, R120, R121: whatever a step faults on, the state is the one before the step but for `status` and `pc`; the
record names the address fetched from and the word fetched there; `pc` is one further, except after a fetch fault.
Derived: the record is decision D4, `pc` decision D5 (log 2, 12). -/
def Obligations.FaultsArePrecise : Prop :=
  ∀ (s t : State) (f : FaultRecord), step s = .next t → t.status = .faulted f →
    SameButStatusAndPc s t ∧ f.faultPc = s.pc ∧
    (∀ n, f.cause = .pcOutOfRange n → t.pc = s.pc ∧ f.word = none) ∧
    ((∀ n, f.cause ≠ .pcOutOfRange n) →
      t.pc = s.pc + 1#32 ∧ ∃ w, s.wordAt 0#32 s.pc = some w ∧ f.word = some w)

/-- R113: no step is defined from a halted or a faulted state. Derived: that `step` then answers a stop which names the
terminal status is the model's choice (log 1). -/
def Obligations.TerminalStatesAreFinal : Prop :=
  ∀ s : State, s.status ≠ .running →
    (∀ t, step s ≠ .next t) ∧ (s.status = .halted → step s = .fault .halted) ∧
    (∀ f, s.status = .faulted f → step s = .fault (.faulted f))

/-- R112: a running machine always takes a step: no word, no operand and no host answer stops it otherwise. Derived:
faults and waits are next states of the model (log 1, 5). -/
def Obligations.RunningMachineAlwaysSteps : Prop :=
  ∀ s : State, s.status = .running → ∃ t, step s = .next t

/-- R129: Halt is the only way to end with success; a program that runs off the end of segment 0 faults. -/
def Obligations.HaltIsTheOnlySuccess : Prop :=
  (∀ s t : State, step s = .next t →
    (statusExit t.status = some .success ↔ ∃ w, s.wordAt 0#32 s.pc = some w ∧ decode w = .ok .halt)) ∧
  (∀ (s : State) (n : Nat), s.status = .running → s.segLength 0#32 = some n → n ≤ s.pc.toNat →
    ∃ t f, step s = .next t ∧ t.status = .faulted f ∧ f.cause = .pcOutOfRange n ∧
      statusExit t.status = some .failure)

/-- R18, R102: every instruction but Load Program leaves `pc` at the fetch address plus one, also when it faults; an
Input that waits is no step of the machine (R111). Derived: the wait is the model's (log 5). -/
def Obligations.OnlyLoadProgramRedirects : Prop :=
  ∀ (s t : State) (w : Word) (i : Instr), step s = .next t → s.wordAt 0#32 s.pc = some w → decode w = .ok i →
    (∀ b c, i ≠ .loadprog b c) → ¬ Waiting s → t.pc = s.pc + 1#32

/-- R30: a segment's length changes in three ways only: Map gives the new segment the length asked for, Unmap unmaps,
Load Program gives segment 0 the length of its source. Derived: R30 is the spec's own derivation. -/
def Obligations.SegmentLengthsChangeInThreeWays : Prop :=
  ∀ (s t : State) (id : Word), step s = .next t → t.segLength id ≠ s.segLength id →
    ∃ w, s.wordAt 0#32 s.pc = some w ∧
      ((∃ b c, decode w = .ok (.map b c) ∧ t.reg b = id ∧ t.segLength id = some (s.reg c).toNat) ∨
       (∃ c, decode w = .ok (.unmap c) ∧ s.reg c = id ∧ t.segLength id = none) ∨
       (∃ b c, decode w = .ok (.loadprog b c) ∧ s.reg b ≠ 0#32 ∧ id = 0#32 ∧
          t.segLength id = s.segLength (s.reg b)))

/-- R22, R26: only Map and Unmap change the free stack or the high-water mark, and the mark never decreases. Derived:
R22 and R26 are in part the spec's own derivation. -/
def Obligations.AllocatorMovesOnlyInMapAndUnmap : Prop :=
  ∀ s t : State, step s = .next t →
    s.hw ≤ t.hw ∧
    (¬ SameAllocator s t → ∃ w, s.wordAt 0#32 s.pc = some w ∧
      ((∃ b c, decode w = .ok (.map b c)) ∨ (∃ c, decode w = .ok (.unmap c))))

/-- R14, R74: a step writes at most one register. Derived: stated of whole steps. -/
def Obligations.EachStepWritesAtMostOneRegister : Prop :=
  ∀ s t : State, step s = .next t → ∃ r : Reg, SameRegsBut r s t

/-- R97, R98: only Output moves the output stream, by one byte at its end; only Input moves the input stream, by the
one event the host offers; an Input for which the host has none consumes no event, and the host's offer of nothing is
past. Derived: the streams' form in State is the model's (log 3, 4, 5). -/
def Obligations.StreamsMoveOneUnitAtATime : Prop :=
  ∀ s t : State, step s = .next t →
    (t.output = s.output ∨ ∃ w c b, s.wordAt 0#32 s.pc = some w ∧ decode w = .ok (.out c) ∧
      t.output = s.output ++ [b] ∧ b.toNat = (s.reg c).toNat % 2 ^ 8) ∧
    (SameInput s t ∨ ∃ w c, s.wordAt 0#32 s.pc = some w ∧ decode w = .ok (.inp c) ∧
      t.input = s.input.tail ∧ t.inputRest = s.inputRest ∧
      ((∃ e, s.inputOffer = some e ∧ t.inputLog = s.inputLog ++ [e]) ∨
       (s.inputOffer = none ∧ t.inputLog = s.inputLog)))

/-- R98, R112, R135: a waiting Input changes nothing of the block's state; the host's offer of nothing is past, and the
machine waits on exactly as long as the next offer is nothing too. Derived: decision D18, and the form of the wait is
the model's (log 5). -/
def Obligations.WaitingInputChangesNothing : Prop :=
  ∀ s : State, Waiting s → step s = .next { s with input := s.input.tail } ∧
    (Waiting { s with input := s.input.tail } ↔ ({ s with input := s.input.tail } : State).inputOffer = none)

/-- R98, R112, R135: an Input whose first `n` attempts find no event ready waits `n` steps, with all of the block's
state kept, and completes at the attempt that finds one. Derived: decision D18, and the host's offers as data and the
form of the wait are the model's (log 4, 5). -/
def Obligations.WaitEndsWhenTheHostOffersAnEvent : Prop :=
  ∀ (s : State) (w : Word) (c : Reg) (n : Nat) (e : InputEvent) (rest : List (Option InputEvent)),
    s.status = .running → s.wordAt 0#32 s.pc = some w → decode w = .ok (.inp c) →
    s.input = List.replicate n none ++ some e :: rest →
    (∀ k, k < n → Waiting { s with input := s.input.drop k }) ∧
    (∀ k, k ≤ n → Steps k s { s with input := s.input.drop k }) ∧
    ∃ t, Steps (n + 1) s t ∧
      (∀ b, e = .byte b → (t.reg c).toNat = b.toNat) ∧ (e = .endOfInput → t.reg c = 0xFFFFFFFF#32) ∧
      t.input = rest ∧ t.inputRest = s.inputRest ∧ t.inputLog = s.inputLog ++ [e] ∧
      SameRegsBut c s t ∧ t.pc = s.pc + 1#32 ∧ SameMemory s t ∧ SameAllocator s t ∧ t.status = .running ∧
      t.output = s.output ∧ SameDraws s t

/-- R98, R104, R135: the wait has no timeout, so with no event ever offered it lasts any number of steps; and from any
wait the host's answer to the pending Input lets that Input complete with the event. Derived: decision D18, and the
form of the wait and of the answer are the model's (log 5). -/
def Obligations.HostAnswerEndsAnyWait : Prop :=
  ∀ s : State, Waiting s →
    (s.input = [] → ∀ n, Steps n s s) ∧
    (∀ e : InputEvent, ∃ w c t, s.wordAt 0#32 s.pc = some w ∧ decode w = .ok (.inp c) ∧
      step (s.answerInput e) = .next t ∧
      (∀ b, e = .byte b → (t.reg c).toNat = b.toNat) ∧ (e = .endOfInput → t.reg c = 0xFFFFFFFF#32) ∧
      t.input = s.input.tail ∧ t.inputRest = s.inputRest ∧ t.inputLog = s.inputLog ++ [e] ∧
      SameRegsBut c s t ∧ t.pc = s.pc + 1#32 ∧ SameMemory s t ∧ SameAllocator s t ∧ t.status = .running ∧
      t.output = s.output ∧ SameDraws s t)

/-! ### The indexer -/

/-- R38: `SegRead`. -/
def Obligations.SegReadReadsOrFaults : Prop :=
  ∀ (s : State) (id off : Word),
    (s.mapped id = false → s.segRead id off = .error (.segmentNotMapped id off)) ∧
    (∀ n, s.segLength id = some n →
      (n ≤ off.toNat → s.segRead id off = .error (.offsetOutOfRange id off n)) ∧
      (off.toNat < n → ∃ v, s.wordAt id off = some v ∧ s.segRead id off = .ok v)) ∧
    (∀ t : State, t.segs = s.segs → t.segRead id off = s.segRead id off)

/-- R39: `SegWrite`. -/
def Obligations.SegWriteWritesOneWord : Prop :=
  ∀ (s : State) (id off v : Word),
    (s.mapped id = false → s.segWrite id off v = .error (.segmentNotMapped id off)) ∧
    (∀ n, s.segLength id = some n →
      (n ≤ off.toNat → s.segWrite id off v = .error (.offsetOutOfRange id off n)) ∧
      (off.toNat < n → ∃ t, s.segWrite id off v = .ok t ∧ t.wordAt id off = some v ∧ t.segLength id = some n ∧
        SameMemoryButWord id off s t))

/-- R44: `SegReplace0`, used with `id != 0`: segment 0 becomes a copy, and later writes to either segment leave the
other as it is. -/
def Obligations.SegReplace0CopiesIndependently : Prop :=
  ∀ (s : State) (id : Word), id ≠ 0#32 →
    (s.mapped id = false → s.segReplace0 id = .error (.loadProgramNotMapped id)) ∧
    (s.mapped id = true → ∃ t, s.segReplace0 id = .ok t ∧
      t.segLength 0#32 = s.segLength id ∧ (∀ k, t.wordAt 0#32 k = s.wordAt id k) ∧ SameMemoryBut 0#32 s t ∧
      (∀ off v u k, t.segWrite id off v = .ok u → u.wordAt 0#32 k = t.wordAt 0#32 k) ∧
      (∀ off v u k, t.segWrite 0#32 off v = .ok u → u.wordAt id k = t.wordAt id k))

/-! ### The instructions

Each statement has the encoding of its rule (opcode numbers: decision D1, log 9), what the instruction does in every
case, that it completes, and what it leaves unchanged. -/

/-- R80, Conditional Move. -/
def Obligations.ConditionalMoveMovesWhenNonzero : Prop :=
  (∀ w : Word, w &&& 0xF0000000#32 = 0x00000000#32 →
    decode w = .ok (.cmov (fields w).a (fields w).b (fields w).c)) ∧
  (∀ (a b c : Reg) (s : State), ∃ t, exec (.cmov a b c) s = .next t ∧
    t.reg a = (if s.reg c ≠ 0#32 then s.reg b else s.reg a) ∧
    SameRegsBut a s t ∧ t.pc = s.pc ∧ SameBeyondRegs s t)

/-- R81, Segmented Load. -/
def Obligations.LoadReadsTheSegmentWord : Prop :=
  (∀ w : Word, w &&& 0xF0000000#32 = 0x10000000#32 →
    decode w = .ok (.load (fields w).a (fields w).b (fields w).c)) ∧
  (∀ (a b c : Reg) (s : State),
    (s.mapped (s.reg b) = false →
      TakesFault (.segmentNotMapped (s.reg b) (s.reg c)) s (exec (.load a b c) s)) ∧
    (∀ n, s.segLength (s.reg b) = some n →
      (n ≤ (s.reg c).toNat →
        TakesFault (.offsetOutOfRange (s.reg b) (s.reg c) n) s (exec (.load a b c) s)) ∧
      ((s.reg c).toNat < n → ∃ t v, exec (.load a b c) s = .next t ∧
        s.wordAt (s.reg b) (s.reg c) = some v ∧ t.reg a = v ∧
        SameRegsBut a s t ∧ t.pc = s.pc ∧ SameBeyondRegs s t)))

/-- R82, Segmented Store. -/
def Obligations.StoreWritesTheSegmentWord : Prop :=
  (∀ w : Word, w &&& 0xF0000000#32 = 0x20000000#32 →
    decode w = .ok (.store (fields w).a (fields w).b (fields w).c)) ∧
  (∀ (a b c : Reg) (s : State),
    (s.mapped (s.reg a) = false →
      TakesFault (.segmentNotMapped (s.reg a) (s.reg b)) s (exec (.store a b c) s)) ∧
    (∀ n, s.segLength (s.reg a) = some n →
      (n ≤ (s.reg b).toNat →
        TakesFault (.offsetOutOfRange (s.reg a) (s.reg b) n) s (exec (.store a b c) s)) ∧
      ((s.reg b).toNat < n → ∃ t, exec (.store a b c) s = .next t ∧
        t.wordAt (s.reg a) (s.reg b) = some (s.reg c) ∧ SameMemoryButWord (s.reg a) (s.reg b) s t ∧
        SameRegs s t ∧ t.pc = s.pc ∧ SameAllocator s t ∧ t.status = s.status ∧ SameHost s t)))

/-- R86, Add. -/
def Obligations.AddIsTheSumModulo : Prop :=
  (∀ w : Word, w &&& 0xF0000000#32 = 0x30000000#32 →
    decode w = .ok (.add (fields w).a (fields w).b (fields w).c)) ∧
  (∀ (a b c : Reg) (s : State), ∃ t, exec (.add a b c) s = .next t ∧
    (t.reg a).toNat = ((s.reg b).toNat + (s.reg c).toNat) % 2 ^ 32 ∧
    SameRegsBut a s t ∧ t.pc = s.pc ∧ SameBeyondRegs s t)

/-- R87, Multiply. -/
def Obligations.MultiplyIsTheProductModulo : Prop :=
  (∀ w : Word, w &&& 0xF0000000#32 = 0x40000000#32 →
    decode w = .ok (.mul (fields w).a (fields w).b (fields w).c)) ∧
  (∀ (a b c : Reg) (s : State), ∃ t, exec (.mul a b c) s = .next t ∧
    (t.reg a).toNat = (s.reg b).toNat * (s.reg c).toNat % 2 ^ 32 ∧
    SameRegsBut a s t ∧ t.pc = s.pc ∧ SameBeyondRegs s t)

/-- R88, Divide; the quotient as R85 says it. -/
def Obligations.DivideTruncatesOrFaults : Prop :=
  (∀ w : Word, w &&& 0xF0000000#32 = 0x50000000#32 →
    decode w = .ok (.div (fields w).a (fields w).b (fields w).c)) ∧
  (∀ (a b c : Reg) (s : State),
    (s.reg c = 0#32 → TakesFault (.divideByZero c) s (exec (.div a b c) s)) ∧
    (s.reg c ≠ 0#32 → ∃ t r, exec (.div a b c) s = .next t ∧
      (s.reg b).toNat = (t.reg a).toNat * (s.reg c).toNat + r ∧ r < (s.reg c).toNat ∧
      SameRegsBut a s t ∧ t.pc = s.pc ∧ SameBeyondRegs s t))

/-- R89, Bitwise NAND, bit by bit. -/
def Obligations.NandIsBitwise : Prop :=
  (∀ w : Word, w &&& 0xF0000000#32 = 0x60000000#32 →
    decode w = .ok (.nand (fields w).a (fields w).b (fields w).c)) ∧
  (∀ (a b c : Reg) (s : State), ∃ t, exec (.nand a b c) s = .next t ∧
    (∀ k, k < 32 → (t.reg a).getLsbD k = !((s.reg b).getLsbD k && (s.reg c).getLsbD k)) ∧
    SameRegsBut a s t ∧ t.pc = s.pc ∧ SameBeyondRegs s t)

/-- R91, Halt: the status alone changes, no further instruction is fetched, and the host sees success. -/
def Obligations.HaltStopsWithSuccess : Prop :=
  (∀ w : Word, w &&& 0xF0000000#32 = 0x70000000#32 → decode w = .ok .halt) ∧
  (∀ s : State, ∃ t, exec .halt s = .next t ∧ t.status = .halted ∧ SameButStatus s t ∧
    statusExit t.status = some .success ∧ ∀ u, step t ≠ .next u)

/-- R42, R92, R122, Map Segment: exhaustion before allocation failure; otherwise the top of the free stack or the next
fresh id, mapped to `x[C]` zero words, is written to `x[B]`. Derived: length 0 is decision D6 (log 20), the two faults
D7 and D8 (log 6, 18). -/
def Obligations.MapAssignsZeroedSegments : Prop :=
  (∀ w : Word, w &&& 0xF0000000#32 = 0x80000000#32 → decode w = .ok (.map (fields w).b (fields w).c)) ∧
  (∀ (b c : Reg) (s : State),
    (s.free = [] → s.hw = 0xFFFFFFFF#32 →
      TakesFault (.segmentIdExhausted (s.reg c)) s (exec (.map b c) s)) ∧
    (s.free ≠ [] ∨ s.hw ≠ 0xFFFFFFFF#32 →
      (s.allocFails = true → TakesFault (.allocationFailure (s.reg c)) s (exec (.map b c) s)) ∧
      (s.allocFails = false → ∃ t id, exec (.map b c) s = .next t ∧ t.reg b = id ∧
        (∀ top rest, s.free = top :: rest → id = top ∧ t.free = rest ∧ t.hw = s.hw) ∧
        (s.free = [] → id.toNat = s.hw.toNat + 1 ∧ t.free = [] ∧ t.hw = id) ∧
        t.segLength id = some (s.reg c).toNat ∧
        (∀ off : Word, off.toNat < (s.reg c).toNat → t.wordAt id off = some 0#32) ∧
        SameMemoryBut id s t ∧ SameRegsBut b s t ∧ t.pc = s.pc ∧ t.status = s.status ∧
        SameInput s t ∧ t.output = s.output ∧
        t.allocDraws = s.allocDraws.tail ∧ t.allocRest = s.allocRest)))

/-- R92, its corner case on ids: in a state that meets the id invariant (R27), the id Map assigns is not 0 and was not
mapped. Derived: it rests on R27. -/
def Obligations.MapAssignsAFreshNonzeroId : Prop :=
  ∀ (b c : Reg) (s t : State), IdInvariant s → s.status = .running → exec (.map b c) s = .next t →
    t.status = .running → t.reg b ≠ 0#32 ∧ s.mapped (t.reg b) = false

/-- R43, R93, Unmap Segment. -/
def Obligations.UnmapFreesTheSegment : Prop :=
  (∀ w : Word, w &&& 0xF0000000#32 = 0x90000000#32 → decode w = .ok (.unmap (fields w).c)) ∧
  (∀ (c : Reg) (s : State),
    (s.reg c = 0#32 → TakesFault .unmapSegmentZero s (exec (.unmap c) s)) ∧
    (s.reg c ≠ 0#32 → s.mapped (s.reg c) = false →
      TakesFault (.unmapNotMapped (s.reg c)) s (exec (.unmap c) s)) ∧
    (s.reg c ≠ 0#32 → s.mapped (s.reg c) = true → ∃ t, exec (.unmap c) s = .next t ∧
      t.mapped (s.reg c) = false ∧ SameMemoryBut (s.reg c) s t ∧
      t.free = s.reg c :: s.free ∧ t.hw = s.hw ∧
      SameRegs s t ∧ t.pc = s.pc ∧ t.status = s.status ∧ SameHost s t))

/-- R94: ids are reused last-in, first-out. Map, Unmap of its id, Map again: the same id, with zeroed words. Unmap of
two ids, then two Maps: the second id, then the first; and a third Map, where nothing else was free, the next fresh
id. Derived: the second case is the spec's own derivation. -/
def Obligations.IdsAreReusedLastInFirstOut : Prop :=
  (∀ (s s1 s2 s3 : State) (b c d e : Reg),
    exec (.map b c) s = .next s1 → s1.status = .running →
    exec (.unmap b) s1 = .next s2 → s2.status = .running →
    exec (.map d e) s2 = .next s3 → s3.status = .running →
    s3.reg d = s1.reg b ∧ s3.segLength (s3.reg d) = some (s2.reg e).toNat ∧
    ∀ off : Word, off.toNat < (s2.reg e).toNat → s3.wordAt (s3.reg d) off = some 0#32) ∧
  (∀ (s s1 s2 s3 s4 : State) (p q b c d e : Reg),
    exec (.unmap p) s = .next s1 → s1.status = .running →
    exec (.unmap q) s1 = .next s2 → s2.status = .running →
    exec (.map b c) s2 = .next s3 → s3.status = .running →
    exec (.map d e) s3 = .next s4 → s4.status = .running →
    s3.reg b = s.reg q ∧ s4.reg d = s.reg p ∧
    ∀ (s5 : State) (f g : Reg), s.free = [] → exec (.map f g) s4 = .next s5 → s5.status = .running →
      s5.reg f = s.hw + 1#32)

/-- R95, Output: the low byte, whatever the register holds. -/
def Obligations.OutputWritesTheLowByte : Prop :=
  (∀ w : Word, w &&& 0xF0000000#32 = 0xA0000000#32 → decode w = .ok (.out (fields w).c)) ∧
  (∀ (c : Reg) (s : State), ∃ t b, exec (.out c) s = .next t ∧
    t.output = s.output ++ [b] ∧ b.toNat = (s.reg c).toNat % 2 ^ 8 ∧
    SameRegs s t ∧ t.pc = s.pc ∧ SameMemory s t ∧ SameAllocator s t ∧ t.status = s.status ∧
    SameInput s t ∧ SameDraws s t)

/-- R96, R98, R99, Input: the next byte zero-extended, or the sentinel at end of input; with no event offered, nothing
but the increment undone and the offer of nothing past. Never a fault. Derived: the event source is decision D18, its form in State and the wait
are the model's (log 4, 5). -/
def Obligations.InputTakesOneEvent : Prop :=
  (∀ w : Word, w &&& 0xF0000000#32 = 0xB0000000#32 → decode w = .ok (.inp (fields w).c)) ∧
  (∀ (c : Reg) (s : State) (e : InputEvent),
    (∃ rest, s.input = some e :: rest) ∨ (s.input = [] ∧ s.inputRest = some e) →
    ∃ t, exec (.inp c) s = .next t ∧
      (∀ b, e = .byte b → (t.reg c).toNat = b.toNat) ∧ (e = .endOfInput → t.reg c = 0xFFFFFFFF#32) ∧
      t.input = s.input.tail ∧ t.inputRest = s.inputRest ∧ t.inputLog = s.inputLog ++ [e] ∧
      SameRegsBut c s t ∧ t.pc = s.pc ∧ SameMemory s t ∧ SameAllocator s t ∧ t.status = s.status ∧
      t.output = s.output ∧ SameDraws s t) ∧
  (∀ (c : Reg) (s : State), (∃ rest, s.input = none :: rest) ∨ (s.input = [] ∧ s.inputRest = none) →
    ∃ t, exec (.inp c) s = .next t ∧ t.pc = s.pc - 1#32 ∧
      t.input = s.input.tail ∧ t.inputRest = s.inputRest ∧ t.inputLog = s.inputLog ∧
      SameRegs s t ∧ SameMemory s t ∧ SameAllocator s t ∧ t.status = s.status ∧
      t.output = s.output ∧ SameDraws s t)

/-- R100, Load Program: a jump with `x[B] = 0`; otherwise segment 0 becomes a copy of segment `x[B]`, or the fault
leaves segment 0 and `pc` alone. The target is any word. Derived: the unchecked target is decision D9 (log 21). -/
def Obligations.LoadProgramJumpsAndCopies : Prop :=
  (∀ w : Word, w &&& 0xF0000000#32 = 0xC0000000#32 → decode w = .ok (.loadprog (fields w).b (fields w).c)) ∧
  (∀ (b c : Reg) (s : State),
    (s.reg b = 0#32 → ∃ t, exec (.loadprog b c) s = .next t ∧ t.pc = s.reg c ∧
      SameRegs s t ∧ SameBeyondRegs s t) ∧
    (s.reg b ≠ 0#32 → s.mapped (s.reg b) = false →
      TakesFault (.loadProgramNotMapped (s.reg b)) s (exec (.loadprog b c) s)) ∧
    (s.reg b ≠ 0#32 → s.mapped (s.reg b) = true → ∃ t, exec (.loadprog b c) s = .next t ∧ t.pc = s.reg c ∧
      t.segLength 0#32 = s.segLength (s.reg b) ∧ (∀ k, t.wordAt 0#32 k = s.wordAt (s.reg b) k) ∧
      SameMemoryBut 0#32 s t ∧ SameRegs s t ∧ SameAllocator s t ∧ t.status = s.status ∧ SameHost s t))

/-- R101, Load Value: the immediate of the Load-Value form, zero-extended. -/
def Obligations.LoadValueSetsTheImmediate : Prop :=
  (∀ w : Word, w &&& 0xF0000000#32 = 0xD0000000#32 →
    decode w = .ok (.loadval (fields w).la (fields w).imm) ∧ (fields w).imm.toNat = w.toNat % 2 ^ 25) ∧
  (∀ (a : Reg) (imm : Word) (s : State), ∃ t, exec (.loadval a imm) s = .next t ∧
    t.reg a = imm ∧ SameRegsBut a s t ∧ t.pc = s.pc ∧ SameBeyondRegs s t)

/-! ### Instructions together -/

/-- R52: a Load from where a Store just wrote reads the value stored, and completes. Derived from R52, R81, R82. -/
def Obligations.LoadAfterStoreReadsTheValue : Prop :=
  ∀ (s : State) (a b c d e f : Reg) (n : Nat),
    s.segLength (s.reg a) = some n → (s.reg b).toNat < n → s.reg e = s.reg a → s.reg f = s.reg b →
    ∃ s1 s2, exec (.store a b c) s = .next s1 ∧ exec (.load d e f) s1 = .next s2 ∧ s2.reg d = s.reg c

/-- R55, R144, R145, R146: a Store into segment 0 runs as the Store that was fetched, even over its own word, and the
next fetch of that offset sees the new word. Derived: the spec derives it from R39, R40 and R52. -/
def Obligations.StoreIntoTheProgramIsFetchedNext : Prop :=
  ∀ (s : State) (w : Word) (a b c : Reg) (n : Nat),
    s.status = .running → s.wordAt 0#32 s.pc = some w → decode w = .ok (.store a b c) →
    s.reg a = 0#32 → s.segLength 0#32 = some n → (s.reg b).toNat < n →
    ∃ t, step s = .next t ∧ t.status = .running ∧ t.pc = s.pc + 1#32 ∧
      (t.setPc (s.reg b)).fetch = .ok (s.reg c) ∧
      ∀ off : Word, off ≠ s.reg b → (t.setPc off).fetch = (s.setPc off).fetch
end

