-- ==== Sys2Proof/Laws/Decode.lean ====
section
/-! SUPPORT. Laws/Decode.lean: the decoder's fields and the encoder's words as numbers, the handler select per
opcode, and what a decoded instruction says about the word it came from. -/

namespace Sys2Proof

/-! ### Fields as numbers -/

theorem opField_toNat (w : Word) : (opField w).toNat = w.toNat / 2 ^ 28 := by
  have := w.isLt
  simp only [opField, BitVec.extractLsb'_toNat, Nat.shiftRight_eq_div_pow]
  omega

theorem regField_val (w : Word) (lo : Nat) : (regField w lo).val = w.toNat / 2 ^ lo % 8 := by
  show (w.extractLsb' lo 3).toNat = _
  simp only [BitVec.extractLsb'_toNat, Nat.shiftRight_eq_div_pow, Nat.reducePow]

theorem immField_toNat (w : Word) : (immField w).toNat = w.toNat % 2 ^ 25 := by
  have := w.isLt
  simp only [immField, BitVec.toNat_setWidth, BitVec.extractLsb'_toNat, Nat.shiftRight_eq_div_pow]
  omega

theorem regBits_toNat (r : Reg) : (regBits r).toNat = r.val := by
  have := r.isLt
  simp only [regBits, BitVec.toNat_ofNat]
  omega

theorem enc3_toNat (op : BitVec 4) (a b c : Reg) :
    (enc3 op a b c).toNat = op.toNat * 2 ^ 28 + a.val * 2 ^ 6 + b.val * 2 ^ 3 + c.val := by
  have ha := a.isLt
  have hb := b.isLt
  have hc := c.isLt
  unfold enc3
  simp only [BitVec.toNat_append, regBits_toNat]
  rw [← Nat.shiftLeft_add_eq_or_of_lt (by omega), ← Nat.shiftLeft_add_eq_or_of_lt (by omega),
    ← Nat.shiftLeft_add_eq_or_of_lt (by omega), ← Nat.shiftLeft_add_eq_or_of_lt (by simp)]
  simp only [Nat.shiftLeft_eq, BitVec.toNat_ofNat]
  omega

theorem encLV_toNat (a : Reg) (imm : BitVec 25) :
    (encLV a imm).toNat = 13 * 2 ^ 28 + a.val * 2 ^ 25 + imm.toNat := by
  have ha := a.isLt
  have hi := imm.isLt
  unfold encLV
  simp only [BitVec.toNat_append, regBits_toNat]
  rw [← Nat.shiftLeft_add_eq_or_of_lt hi, ← Nat.shiftLeft_add_eq_or_of_lt (by omega)]
  simp only [Nat.shiftLeft_eq, BitVec.toNat_ofNat]
  omega

/-! ### Fields of encoded words -/

theorem opField_enc3 (op : BitVec 4) (a b c : Reg) : opField (enc3 op a b c) = op := by
  apply BitVec.eq_of_toNat_eq
  rw [opField_toNat, enc3_toNat]
  omega

theorem opField_encLV (a : Reg) (imm : BitVec 25) : opField (encLV a imm) = 13#4 := by
  apply BitVec.eq_of_toNat_eq
  have := imm.isLt
  rw [opField_toNat, encLV_toNat, BitVec.toNat_ofNat]
  omega

theorem regField_enc3_a (op : BitVec 4) (a b c : Reg) : regField (enc3 op a b c) 6 = a := by
  apply Fin.ext
  rw [regField_val, enc3_toNat]
  omega

theorem regField_enc3_b (op : BitVec 4) (a b c : Reg) : regField (enc3 op a b c) 3 = b := by
  apply Fin.ext
  rw [regField_val, enc3_toNat]
  omega

theorem regField_enc3_c (op : BitVec 4) (a b c : Reg) : regField (enc3 op a b c) 0 = c := by
  apply Fin.ext
  rw [regField_val, enc3_toNat]
  omega

theorem regField_encLV (a : Reg) (imm : BitVec 25) : regField (encLV a imm) 25 = a := by
  apply Fin.ext
  have := imm.isLt
  rw [regField_val, encLV_toNat]
  omega

theorem immField_encLV (a : Reg) (imm : BitVec 25) : immField (encLV a imm) = imm.setWidth 32 := by
  apply BitVec.eq_of_toNat_eq
  have := imm.isLt
  rw [immField_toNat, encLV_toNat, BitVec.toNat_setWidth]
  omega

theorem immInRange_immField (w : Word) : immInRange (immField w) = true := by
  simp only [immInRange, immField_toNat, decide_eq_true_eq]
  exact Nat.mod_lt _ (by decide)

/-! ### The handler select -/

theorem decode_eq_select (w : Word) : decode w = select (fields w) := rfl

/-- What `decode` answers, by opcode (R64, R67, R72). -/
theorem decode_cases (w : Word) :
    ((opField w).toNat < 14 ∧ ∃ i, decode w = .ok i ∧ i.opcode = opField w) ∨
    (14 ≤ (opField w).toNat ∧ decode w = .error (.invalidOpcode (opField w))) := by
  have h : ∀ op : BitVec 4, ∀ a b c la : Reg, ∀ imm : Word, ∀ v : Bool,
      (op.toNat < 14 ∧ ∃ i, select ⟨op, a, b, c, la, imm, v⟩ = .ok i ∧ i.opcode = op) ∨
      (14 ≤ op.toNat ∧ select ⟨op, a, b, c, la, imm, v⟩ = .error (.invalidOpcode op)) := by
    intro op a b c la imm v
    obtain ⟨⟨n, hn⟩⟩ := op
    interval_cases n <;> first
      | exact .inl ⟨Nat.le_of_ble_eq_true rfl, _, rfl, rfl⟩
      | exact .inr ⟨Nat.le_of_ble_eq_true rfl, rfl⟩
  exact h _ _ _ _ _ _ _

/-- A decoded immediate is in range (R63). -/
theorem imm_of_decode {w : Word} {a : Reg} {imm : Word} (h : decode w = .ok (.loadval a imm)) :
    a = regField w 25 ∧ imm = immField w := by
  unfold decode select fields at h
  split at h <;> simp_all

end Sys2Proof
end

