-- ==== Sys2Proof/Laws/Memory.lean ====
section
/-! SUPPORT. Laws/Memory.lean: the laws of tables and segments. Read after write, reads elsewhere, and the canonical
form each operation keeps. -/

namespace Sys2Proof.Machine

variable {α : Type}

/-! ### Reading a table after an update -/

theorem tableGet_tablePut (t : List (Nat × α)) (k j : Nat) (v : α) :
    tableGet (tablePut t k v) j = if j = k then some v else tableGet t j := by
  induction t with
  | nil => simp [tablePut, tableGet, eq_comm]
  | cons e t ih =>
    obtain ⟨i, u⟩ := e
    unfold tablePut
    split
    · simp [tableGet, eq_comm]
    · split <;> simp only [tableGet, ih] <;> split_ifs <;> first | rfl | omega

theorem tableGet_tableErase (t : List (Nat × α)) (k j : Nat) :
    tableGet (tableErase t k) j = if j = k then none else tableGet t j := by
  induction t with
  | nil => simp [tableErase, tableGet]
  | cons e t ih =>
    obtain ⟨i, u⟩ := e
    unfold tableErase
    split <;> simp only [tableGet, ih] <;> split_ifs <;> first | rfl | omega

@[simp] theorem tableGet_tablePut_self (t : List (Nat × α)) (k : Nat) (v : α) :
    tableGet (tablePut t k v) k = some v := by
  simp [tableGet_tablePut]

theorem tableGet_tablePut_ne (t : List (Nat × α)) {k j : Nat} (v : α) (h : j ≠ k) :
    tableGet (tablePut t k v) j = tableGet t j := by
  simp [tableGet_tablePut, h]

@[simp] theorem tableGet_tableErase_self (t : List (Nat × α)) (k : Nat) :
    tableGet (tableErase t k) k = none := by
  simp [tableGet_tableErase]

theorem tableGet_tableErase_ne (t : List (Nat × α)) {k j : Nat} (h : j ≠ k) :
    tableGet (tableErase t k) j = tableGet t j := by
  simp [tableGet_tableErase, h]

/-! ### The entries of an updated table -/

theorem mem_of_tableGet {t : List (Nat × α)} {k : Nat} {v : α} (h : tableGet t k = some v) : (k, v) ∈ t := by
  induction t with
  | nil => simp [tableGet] at h
  | cons e t ih =>
    obtain ⟨i, u⟩ := e
    unfold tableGet at h
    split at h
    · simp_all
    · exact List.mem_cons_of_mem _ (ih h)

theorem mem_of_mem_tablePut {t : List (Nat × α)} {k : Nat} {v : α} {e : Nat × α} (h : e ∈ tablePut t k v) :
    e = (k, v) ∨ e ∈ t := by
  induction t with
  | nil => simpa [tablePut] using h
  | cons d t ih =>
    obtain ⟨i, u⟩ := d
    unfold tablePut at h
    split at h
    · simpa using h
    · split at h <;> simp only [List.mem_cons] at h ⊢
      · tauto
      · rcases h with h | h
        · exact .inr (.inl h)
        · exact (ih h).imp_right .inr

theorem mem_of_mem_tableErase {t : List (Nat × α)} {k : Nat} {e : Nat × α} (h : e ∈ tableErase t k) : e ∈ t := by
  induction t with
  | nil => simp [tableErase] at h
  | cons d t ih =>
    obtain ⟨i, u⟩ := d
    unfold tableErase at h
    split at h
    · exact List.mem_cons_of_mem _ (ih h)
    · exact (List.mem_cons.1 h).elim (fun h => h ▸ List.mem_cons_self) (fun h => List.mem_cons_of_mem _ (ih h))

/-! ### The rising order of keys -/

theorem tableSorted_tablePut {t : List (Nat × α)} (h : tableSorted t) (k : Nat) (v : α) :
    tableSorted (tablePut t k v) := by
  induction t with
  | nil => simp [tablePut, tableSorted]
  | cons d t ih =>
    obtain ⟨i, u⟩ := d
    obtain ⟨hi, ht⟩ := List.pairwise_cons.1 h
    unfold tablePut
    split
    · next hk =>
      refine List.pairwise_cons.2 ⟨fun e he => ?_, h⟩
      rcases List.mem_cons.1 he with rfl | he
      · exact hk
      · exact lt_trans hk (hi e he)
    · split
      · next hk => exact List.pairwise_cons.2 ⟨fun e he => hk ▸ hi e he, ht⟩
      · next h1 h2 =>
        refine List.pairwise_cons.2 ⟨fun e he => ?_, ih ht⟩
        rcases mem_of_mem_tablePut he with rfl | he
        · show i < k; omega
        · exact hi e he

theorem tableSorted_tableErase {t : List (Nat × α)} (h : tableSorted t) (k : Nat) :
    tableSorted (tableErase t k) := by
  induction t with
  | nil => simp [tableErase, tableSorted]
  | cons d t ih =>
    obtain ⟨i, u⟩ := d
    obtain ⟨hi, ht⟩ := List.pairwise_cons.1 h
    unfold tableErase
    split
    · exact ih ht
    · exact List.pairwise_cons.2 ⟨fun e he => hi e (mem_of_mem_tableErase he), ih ht⟩

/-! ### Segments -/

@[simp] theorem Segment.zeros_length (n : Nat) : (Segment.zeros n).length = n := rfl

@[simp] theorem Segment.ofWords_length (ws : List Word) : (Segment.ofWords ws).length = ws.length := rfl

@[simp] theorem Segment.write_length (g : Segment) (off : Nat) (v : Word) : (g.write off v).length = g.length := rfl

@[simp] theorem Segment.zeros_word (n off : Nat) : (Segment.zeros n).word off = 0#32 := rfl

theorem Segment.write_word (g : Segment) (off j : Nat) (v : Word) :
    (g.write off v).word j = if j = off then v else g.word j := by
  unfold Segment.word Segment.write
  by_cases hv : v = 0#32
  · simp only [hv, if_true, tableGet_tableErase]
    split_ifs <;> simp
  · simp only [hv, if_false, tableGet_tablePut]
    split_ifs <;> simp

theorem Segment.zeros_read (n off : Nat) :
    (Segment.zeros n).read off = if off < n then some 0#32 else none := rfl

theorem Segment.write_read (g : Segment) (off j : Nat) (v : Word) :
    (g.write off v).read j = if j = off ∧ off < g.length then some v else g.read j := by
  unfold Segment.read
  rw [Segment.write_length, Segment.write_word]
  split_ifs <;> simp_all

theorem tableGet_cellsFrom (ws : List Word) (k j : Nat) :
    (tableGet (cellsFrom k ws) j).getD 0#32 = if k ≤ j then ws.getD (j - k) 0#32 else 0#32 := by
  induction ws generalizing k with
  | nil => simp [cellsFrom, tableGet]
  | cons w ws ih =>
    unfold cellsFrom
    rcases Nat.lt_trichotomy j k with h | rfl | h
    · have h1 : ¬ k + 1 ≤ j := by omega
      have h2 : ¬ k ≤ j := by omega
      have h3 : ¬ k = j := by omega
      split <;> simp [tableGet, ih, h1, h3]
    · split
      · next hw => simp [ih, hw]
      · simp [tableGet]
    · have h1 : k + 1 ≤ j := h
      have h2 : k ≤ j := by omega
      have h3 : ¬ k = j := by omega
      obtain ⟨d, rfl⟩ : ∃ d, j = k + 1 + d := ⟨j - (k + 1), by omega⟩
      have h4 : k + 1 + d - k = d + 1 := by omega
      split <;> simp [tableGet, ih, h3, h4]

/-- The segment of an image holds the image, word for word (R136). -/
theorem Segment.ofWords_read (ws : List Word) (off : Nat) : (Segment.ofWords ws).read off = ws[off]? := by
  have h := tableGet_cellsFrom ws 0 off
  simp only [Nat.zero_le, if_true, Nat.sub_zero] at h
  unfold Segment.read Segment.word Segment.ofWords
  simp only [h]
  split
  · next hl => simp [List.getD_eq_getElem?_getD, List.getElem?_eq_getElem hl]
  · next hl => simp [List.getElem?_eq_none (Nat.le_of_not_lt hl)]

/-! ### The canonical form -/

theorem Segment.zeros_wf {n : Nat} (h : n ≤ Config.maxSegmentWords) : (Segment.zeros n).wf := by
  simpa [Segment.wf, Segment.zeros] using h

theorem Segment.write_wf {g : Segment} (h : g.wf) {off : Nat} (ho : off < g.length) (v : Word) :
    (g.write off v).wf := by
  obtain ⟨hs, hc, hl⟩ := h
  unfold Segment.write
  by_cases hv : v = 0#32
  · simp only [hv, if_true]
    exact ⟨tableSorted_tableErase hs off, fun e he => hc e (mem_of_mem_tableErase he), hl⟩
  · simp only [hv, if_false]
    refine ⟨tableSorted_tablePut hs off v, fun e he => ?_, hl⟩
    rcases mem_of_mem_tablePut he with rfl | he
    · exact ⟨ho, hv⟩
    · exact hc e he

theorem mem_cellsFrom {ws : List Word} {k : Nat} {e : Nat × Word} (h : e ∈ cellsFrom k ws) :
    k ≤ e.1 ∧ e.1 < k + ws.length ∧ e.2 ≠ 0#32 := by
  induction ws generalizing k with
  | nil => simp [cellsFrom] at h
  | cons w ws ih =>
    unfold cellsFrom at h
    simp only [List.length_cons]
    split at h
    · exact ⟨by have := (ih h).1; omega, by have := (ih h).2.1; omega, (ih h).2.2⟩
    · next hw =>
      rcases List.mem_cons.1 h with rfl | h
      · exact ⟨le_refl _, by show k < k + (ws.length + 1); omega, hw⟩
      · exact ⟨by have := (ih h).1; omega, by have := (ih h).2.1; omega, (ih h).2.2⟩

theorem tableSorted_cellsFrom (ws : List Word) (k : Nat) : tableSorted (cellsFrom k ws) := by
  induction ws generalizing k with
  | nil => simp [cellsFrom, tableSorted]
  | cons w ws ih =>
    unfold cellsFrom
    split
    · exact ih (k + 1)
    · exact List.pairwise_cons.2 ⟨fun e he => (mem_cellsFrom he).1, ih (k + 1)⟩

theorem Segment.ofWords_wf {ws : List Word} (h : ws.length ≤ Config.maxSegmentWords) : (Segment.ofWords ws).wf := by
  refine ⟨tableSorted_cellsFrom ws 0, fun e he => ?_, h⟩
  have := mem_cellsFrom he
  exact ⟨by simpa [Segment.ofWords] using this.2.1, this.2.2⟩

theorem Memory.wf_tablePut {m : Memory} (h : Memory.wf m) (id : Word) {g : Segment} (hg : g.wf) :
    Memory.wf (tablePut m id.toNat g) := by
  refine ⟨tableSorted_tablePut h.1 _ _, fun e he => ?_⟩
  rcases mem_of_mem_tablePut he with rfl | he
  · exact ⟨id.isLt, hg⟩
  · exact h.2 e he

theorem Memory.wf_tableErase {m : Memory} (h : Memory.wf m) (k : Nat) : Memory.wf (tableErase m k) :=
  ⟨tableSorted_tableErase h.1 k, fun e he => h.2 e (mem_of_mem_tableErase he)⟩

theorem Memory.wf_tableGet {m : Memory} (h : Memory.wf m) {k : Nat} {g : Segment} (hg : tableGet m k = some g) :
    g.wf :=
  (h.2 _ (mem_of_tableGet hg)).2

end Sys2Proof.Machine
end

