-- ==== Sys2Proof/Laws/State.lean ====
section
/-! SUPPORT. Laws/State.lean: what each update of the state does to each field, and to each observer of the
fields it leaves alone. No later proof unfolds an update. -/

namespace Sys2Proof.Machine

/-! ### `State.setReg` -/

@[simp] theorem State.setReg_regs (s : State) (i : Reg) (v : Word) :
    (s.setReg i v).regs = s.regs.set i v := rfl

@[simp] theorem State.setReg_pc (s : State) (i : Reg) (v : Word) :
    (s.setReg i v).pc = s.pc := rfl

@[simp] theorem State.setReg_segs (s : State) (i : Reg) (v : Word) :
    (s.setReg i v).segs = s.segs := rfl

@[simp] theorem State.setReg_free (s : State) (i : Reg) (v : Word) :
    (s.setReg i v).free = s.free := rfl

@[simp] theorem State.setReg_hw (s : State) (i : Reg) (v : Word) :
    (s.setReg i v).hw = s.hw := rfl

@[simp] theorem State.setReg_status (s : State) (i : Reg) (v : Word) :
    (s.setReg i v).status = s.status := rfl

@[simp] theorem State.setReg_input (s : State) (i : Reg) (v : Word) :
    (s.setReg i v).input = s.input := rfl

@[simp] theorem State.setReg_inputRest (s : State) (i : Reg) (v : Word) :
    (s.setReg i v).inputRest = s.inputRest := rfl

@[simp] theorem State.setReg_inputLog (s : State) (i : Reg) (v : Word) :
    (s.setReg i v).inputLog = s.inputLog := rfl

@[simp] theorem State.setReg_output (s : State) (i : Reg) (v : Word) :
    (s.setReg i v).output = s.output := rfl

@[simp] theorem State.setReg_allocDraws (s : State) (i : Reg) (v : Word) :
    (s.setReg i v).allocDraws = s.allocDraws := rfl

@[simp] theorem State.setReg_allocRest (s : State) (i : Reg) (v : Word) :
    (s.setReg i v).allocRest = s.allocRest := rfl

@[simp] theorem State.setReg_segment (s : State) (i : Reg) (v : Word) (k : Word) :
    (s.setReg i v).segment k = s.segment k := rfl

@[simp] theorem State.setReg_mapped (s : State) (i : Reg) (v : Word) (k : Word) :
    (s.setReg i v).mapped k = s.mapped k := rfl

@[simp] theorem State.setReg_segLength (s : State) (i : Reg) (v : Word) (k : Word) :
    (s.setReg i v).segLength k = s.segLength k := rfl

@[simp] theorem State.setReg_wordAt (s : State) (i : Reg) (v : Word) (k off : Word) :
    (s.setReg i v).wordAt k off = s.wordAt k off := rfl

@[simp] theorem State.setReg_inputOffer (s : State) (i : Reg) (v : Word) :
    (s.setReg i v).inputOffer = s.inputOffer := rfl

@[simp] theorem State.setReg_allocFails (s : State) (i : Reg) (v : Word) :
    (s.setReg i v).allocFails = s.allocFails := rfl

@[simp] theorem State.setReg_idsExhausted (s : State) (i : Reg) (v : Word) :
    (s.setReg i v).idsExhausted = s.idsExhausted := rfl

@[simp] theorem State.setReg_nextId (s : State) (i : Reg) (v : Word) :
    (s.setReg i v).nextId = s.nextId := rfl

/-! ### `State.setPc` -/

@[simp] theorem State.setPc_regs (s : State) (v : Word) :
    (s.setPc v).regs = s.regs := rfl

@[simp] theorem State.setPc_pc (s : State) (v : Word) :
    (s.setPc v).pc = v := rfl

@[simp] theorem State.setPc_segs (s : State) (v : Word) :
    (s.setPc v).segs = s.segs := rfl

@[simp] theorem State.setPc_free (s : State) (v : Word) :
    (s.setPc v).free = s.free := rfl

@[simp] theorem State.setPc_hw (s : State) (v : Word) :
    (s.setPc v).hw = s.hw := rfl

@[simp] theorem State.setPc_status (s : State) (v : Word) :
    (s.setPc v).status = s.status := rfl

@[simp] theorem State.setPc_input (s : State) (v : Word) :
    (s.setPc v).input = s.input := rfl

@[simp] theorem State.setPc_inputRest (s : State) (v : Word) :
    (s.setPc v).inputRest = s.inputRest := rfl

@[simp] theorem State.setPc_inputLog (s : State) (v : Word) :
    (s.setPc v).inputLog = s.inputLog := rfl

@[simp] theorem State.setPc_output (s : State) (v : Word) :
    (s.setPc v).output = s.output := rfl

@[simp] theorem State.setPc_allocDraws (s : State) (v : Word) :
    (s.setPc v).allocDraws = s.allocDraws := rfl

@[simp] theorem State.setPc_allocRest (s : State) (v : Word) :
    (s.setPc v).allocRest = s.allocRest := rfl

@[simp] theorem State.setPc_reg (s : State) (v : Word) (r : Reg) :
    (s.setPc v).reg r = s.reg r := rfl

@[simp] theorem State.setPc_segment (s : State) (v : Word) (k : Word) :
    (s.setPc v).segment k = s.segment k := rfl

@[simp] theorem State.setPc_mapped (s : State) (v : Word) (k : Word) :
    (s.setPc v).mapped k = s.mapped k := rfl

@[simp] theorem State.setPc_segLength (s : State) (v : Word) (k : Word) :
    (s.setPc v).segLength k = s.segLength k := rfl

@[simp] theorem State.setPc_wordAt (s : State) (v : Word) (k off : Word) :
    (s.setPc v).wordAt k off = s.wordAt k off := rfl

@[simp] theorem State.setPc_inputOffer (s : State) (v : Word) :
    (s.setPc v).inputOffer = s.inputOffer := rfl

@[simp] theorem State.setPc_allocFails (s : State) (v : Word) :
    (s.setPc v).allocFails = s.allocFails := rfl

@[simp] theorem State.setPc_idsExhausted (s : State) (v : Word) :
    (s.setPc v).idsExhausted = s.idsExhausted := rfl

@[simp] theorem State.setPc_nextId (s : State) (v : Word) :
    (s.setPc v).nextId = s.nextId := rfl

/-! ### `State.advance` -/

@[simp] theorem State.advance_regs (s : State) :
    (s.advance).regs = s.regs := rfl

@[simp] theorem State.advance_pc (s : State) :
    (s.advance).pc = s.pc + 1#32 := rfl

@[simp] theorem State.advance_segs (s : State) :
    (s.advance).segs = s.segs := rfl

@[simp] theorem State.advance_free (s : State) :
    (s.advance).free = s.free := rfl

@[simp] theorem State.advance_hw (s : State) :
    (s.advance).hw = s.hw := rfl

@[simp] theorem State.advance_status (s : State) :
    (s.advance).status = s.status := rfl

@[simp] theorem State.advance_input (s : State) :
    (s.advance).input = s.input := rfl

@[simp] theorem State.advance_inputRest (s : State) :
    (s.advance).inputRest = s.inputRest := rfl

@[simp] theorem State.advance_inputLog (s : State) :
    (s.advance).inputLog = s.inputLog := rfl

@[simp] theorem State.advance_output (s : State) :
    (s.advance).output = s.output := rfl

@[simp] theorem State.advance_allocDraws (s : State) :
    (s.advance).allocDraws = s.allocDraws := rfl

@[simp] theorem State.advance_allocRest (s : State) :
    (s.advance).allocRest = s.allocRest := rfl

@[simp] theorem State.advance_reg (s : State) (r : Reg) :
    (s.advance).reg r = s.reg r := rfl

@[simp] theorem State.advance_segment (s : State) (k : Word) :
    (s.advance).segment k = s.segment k := rfl

@[simp] theorem State.advance_mapped (s : State) (k : Word) :
    (s.advance).mapped k = s.mapped k := rfl

@[simp] theorem State.advance_segLength (s : State) (k : Word) :
    (s.advance).segLength k = s.segLength k := rfl

@[simp] theorem State.advance_wordAt (s : State) (k off : Word) :
    (s.advance).wordAt k off = s.wordAt k off := rfl

@[simp] theorem State.advance_inputOffer (s : State) :
    (s.advance).inputOffer = s.inputOffer := rfl

@[simp] theorem State.advance_allocFails (s : State) :
    (s.advance).allocFails = s.allocFails := rfl

@[simp] theorem State.advance_idsExhausted (s : State) :
    (s.advance).idsExhausted = s.idsExhausted := rfl

@[simp] theorem State.advance_nextId (s : State) :
    (s.advance).nextId = s.nextId := rfl

/-! ### `State.wait` -/

@[simp] theorem State.wait_regs (s : State) :
    (s.wait).regs = s.regs := rfl

@[simp] theorem State.wait_pc (s : State) :
    (s.wait).pc = s.pc - 1#32 := rfl

@[simp] theorem State.wait_segs (s : State) :
    (s.wait).segs = s.segs := rfl

@[simp] theorem State.wait_free (s : State) :
    (s.wait).free = s.free := rfl

@[simp] theorem State.wait_hw (s : State) :
    (s.wait).hw = s.hw := rfl

@[simp] theorem State.wait_status (s : State) :
    (s.wait).status = s.status := rfl

@[simp] theorem State.wait_input (s : State) :
    (s.wait).input = s.input.tail := rfl

@[simp] theorem State.wait_inputRest (s : State) :
    (s.wait).inputRest = s.inputRest := rfl

@[simp] theorem State.wait_inputLog (s : State) :
    (s.wait).inputLog = s.inputLog := rfl

@[simp] theorem State.wait_output (s : State) :
    (s.wait).output = s.output := rfl

@[simp] theorem State.wait_allocDraws (s : State) :
    (s.wait).allocDraws = s.allocDraws := rfl

@[simp] theorem State.wait_allocRest (s : State) :
    (s.wait).allocRest = s.allocRest := rfl

@[simp] theorem State.wait_reg (s : State) (r : Reg) :
    (s.wait).reg r = s.reg r := rfl

@[simp] theorem State.wait_segment (s : State) (k : Word) :
    (s.wait).segment k = s.segment k := rfl

@[simp] theorem State.wait_mapped (s : State) (k : Word) :
    (s.wait).mapped k = s.mapped k := rfl

@[simp] theorem State.wait_segLength (s : State) (k : Word) :
    (s.wait).segLength k = s.segLength k := rfl

@[simp] theorem State.wait_wordAt (s : State) (k off : Word) :
    (s.wait).wordAt k off = s.wordAt k off := rfl

@[simp] theorem State.wait_allocFails (s : State) :
    (s.wait).allocFails = s.allocFails := rfl

@[simp] theorem State.wait_idsExhausted (s : State) :
    (s.wait).idsExhausted = s.idsExhausted := rfl

@[simp] theorem State.wait_nextId (s : State) :
    (s.wait).nextId = s.nextId := rfl

/-! ### `State.answerInput` -/

@[simp] theorem State.answerInput_regs (s : State) (e : InputEvent) :
    (s.answerInput e).regs = s.regs := rfl

@[simp] theorem State.answerInput_pc (s : State) (e : InputEvent) :
    (s.answerInput e).pc = s.pc := rfl

@[simp] theorem State.answerInput_segs (s : State) (e : InputEvent) :
    (s.answerInput e).segs = s.segs := rfl

@[simp] theorem State.answerInput_free (s : State) (e : InputEvent) :
    (s.answerInput e).free = s.free := rfl

@[simp] theorem State.answerInput_hw (s : State) (e : InputEvent) :
    (s.answerInput e).hw = s.hw := rfl

@[simp] theorem State.answerInput_status (s : State) (e : InputEvent) :
    (s.answerInput e).status = s.status := rfl

@[simp] theorem State.answerInput_input (s : State) (e : InputEvent) :
    (s.answerInput e).input = some e :: s.input.tail := rfl

@[simp] theorem State.answerInput_inputRest (s : State) (e : InputEvent) :
    (s.answerInput e).inputRest = s.inputRest := rfl

@[simp] theorem State.answerInput_inputLog (s : State) (e : InputEvent) :
    (s.answerInput e).inputLog = s.inputLog := rfl

@[simp] theorem State.answerInput_output (s : State) (e : InputEvent) :
    (s.answerInput e).output = s.output := rfl

@[simp] theorem State.answerInput_allocDraws (s : State) (e : InputEvent) :
    (s.answerInput e).allocDraws = s.allocDraws := rfl

@[simp] theorem State.answerInput_allocRest (s : State) (e : InputEvent) :
    (s.answerInput e).allocRest = s.allocRest := rfl

@[simp] theorem State.answerInput_reg (s : State) (e : InputEvent) (r : Reg) :
    (s.answerInput e).reg r = s.reg r := rfl

@[simp] theorem State.answerInput_segment (s : State) (e : InputEvent) (k : Word) :
    (s.answerInput e).segment k = s.segment k := rfl

@[simp] theorem State.answerInput_mapped (s : State) (e : InputEvent) (k : Word) :
    (s.answerInput e).mapped k = s.mapped k := rfl

@[simp] theorem State.answerInput_segLength (s : State) (e : InputEvent) (k : Word) :
    (s.answerInput e).segLength k = s.segLength k := rfl

@[simp] theorem State.answerInput_wordAt (s : State) (e : InputEvent) (k off : Word) :
    (s.answerInput e).wordAt k off = s.wordAt k off := rfl

@[simp] theorem State.answerInput_allocFails (s : State) (e : InputEvent) :
    (s.answerInput e).allocFails = s.allocFails := rfl

@[simp] theorem State.answerInput_idsExhausted (s : State) (e : InputEvent) :
    (s.answerInput e).idsExhausted = s.idsExhausted := rfl

@[simp] theorem State.answerInput_nextId (s : State) (e : InputEvent) :
    (s.answerInput e).nextId = s.nextId := rfl

/-! ### `State.setSegment` -/

@[simp] theorem State.setSegment_regs (s : State) (id : Word) (g : Segment) :
    (s.setSegment id g).regs = s.regs := rfl

@[simp] theorem State.setSegment_pc (s : State) (id : Word) (g : Segment) :
    (s.setSegment id g).pc = s.pc := rfl

@[simp] theorem State.setSegment_segs (s : State) (id : Word) (g : Segment) :
    (s.setSegment id g).segs = tablePut s.segs id.toNat g := rfl

@[simp] theorem State.setSegment_free (s : State) (id : Word) (g : Segment) :
    (s.setSegment id g).free = s.free := rfl

@[simp] theorem State.setSegment_hw (s : State) (id : Word) (g : Segment) :
    (s.setSegment id g).hw = s.hw := rfl

@[simp] theorem State.setSegment_status (s : State) (id : Word) (g : Segment) :
    (s.setSegment id g).status = s.status := rfl

@[simp] theorem State.setSegment_input (s : State) (id : Word) (g : Segment) :
    (s.setSegment id g).input = s.input := rfl

@[simp] theorem State.setSegment_inputRest (s : State) (id : Word) (g : Segment) :
    (s.setSegment id g).inputRest = s.inputRest := rfl

@[simp] theorem State.setSegment_inputLog (s : State) (id : Word) (g : Segment) :
    (s.setSegment id g).inputLog = s.inputLog := rfl

@[simp] theorem State.setSegment_output (s : State) (id : Word) (g : Segment) :
    (s.setSegment id g).output = s.output := rfl

@[simp] theorem State.setSegment_allocDraws (s : State) (id : Word) (g : Segment) :
    (s.setSegment id g).allocDraws = s.allocDraws := rfl

@[simp] theorem State.setSegment_allocRest (s : State) (id : Word) (g : Segment) :
    (s.setSegment id g).allocRest = s.allocRest := rfl

@[simp] theorem State.setSegment_reg (s : State) (id : Word) (g : Segment) (r : Reg) :
    (s.setSegment id g).reg r = s.reg r := rfl

@[simp] theorem State.setSegment_inputOffer (s : State) (id : Word) (g : Segment) :
    (s.setSegment id g).inputOffer = s.inputOffer := rfl

@[simp] theorem State.setSegment_allocFails (s : State) (id : Word) (g : Segment) :
    (s.setSegment id g).allocFails = s.allocFails := rfl

@[simp] theorem State.setSegment_idsExhausted (s : State) (id : Word) (g : Segment) :
    (s.setSegment id g).idsExhausted = s.idsExhausted := rfl

@[simp] theorem State.setSegment_nextId (s : State) (id : Word) (g : Segment) :
    (s.setSegment id g).nextId = s.nextId := rfl

/-! ### `State.dropSegment` -/

@[simp] theorem State.dropSegment_regs (s : State) (id : Word) :
    (s.dropSegment id).regs = s.regs := rfl

@[simp] theorem State.dropSegment_pc (s : State) (id : Word) :
    (s.dropSegment id).pc = s.pc := rfl

@[simp] theorem State.dropSegment_segs (s : State) (id : Word) :
    (s.dropSegment id).segs = tableErase s.segs id.toNat := rfl

@[simp] theorem State.dropSegment_free (s : State) (id : Word) :
    (s.dropSegment id).free = s.free := rfl

@[simp] theorem State.dropSegment_hw (s : State) (id : Word) :
    (s.dropSegment id).hw = s.hw := rfl

@[simp] theorem State.dropSegment_status (s : State) (id : Word) :
    (s.dropSegment id).status = s.status := rfl

@[simp] theorem State.dropSegment_input (s : State) (id : Word) :
    (s.dropSegment id).input = s.input := rfl

@[simp] theorem State.dropSegment_inputRest (s : State) (id : Word) :
    (s.dropSegment id).inputRest = s.inputRest := rfl

@[simp] theorem State.dropSegment_inputLog (s : State) (id : Word) :
    (s.dropSegment id).inputLog = s.inputLog := rfl

@[simp] theorem State.dropSegment_output (s : State) (id : Word) :
    (s.dropSegment id).output = s.output := rfl

@[simp] theorem State.dropSegment_allocDraws (s : State) (id : Word) :
    (s.dropSegment id).allocDraws = s.allocDraws := rfl

@[simp] theorem State.dropSegment_allocRest (s : State) (id : Word) :
    (s.dropSegment id).allocRest = s.allocRest := rfl

@[simp] theorem State.dropSegment_reg (s : State) (id : Word) (r : Reg) :
    (s.dropSegment id).reg r = s.reg r := rfl

@[simp] theorem State.dropSegment_inputOffer (s : State) (id : Word) :
    (s.dropSegment id).inputOffer = s.inputOffer := rfl

@[simp] theorem State.dropSegment_allocFails (s : State) (id : Word) :
    (s.dropSegment id).allocFails = s.allocFails := rfl

@[simp] theorem State.dropSegment_idsExhausted (s : State) (id : Word) :
    (s.dropSegment id).idsExhausted = s.idsExhausted := rfl

@[simp] theorem State.dropSegment_nextId (s : State) (id : Word) :
    (s.dropSegment id).nextId = s.nextId := rfl

/-! ### `State.pushFree` -/

@[simp] theorem State.pushFree_regs (s : State) (id : Word) :
    (s.pushFree id).regs = s.regs := rfl

@[simp] theorem State.pushFree_pc (s : State) (id : Word) :
    (s.pushFree id).pc = s.pc := rfl

@[simp] theorem State.pushFree_segs (s : State) (id : Word) :
    (s.pushFree id).segs = s.segs := rfl

@[simp] theorem State.pushFree_free (s : State) (id : Word) :
    (s.pushFree id).free = id :: s.free := rfl

@[simp] theorem State.pushFree_hw (s : State) (id : Word) :
    (s.pushFree id).hw = s.hw := rfl

@[simp] theorem State.pushFree_status (s : State) (id : Word) :
    (s.pushFree id).status = s.status := rfl

@[simp] theorem State.pushFree_input (s : State) (id : Word) :
    (s.pushFree id).input = s.input := rfl

@[simp] theorem State.pushFree_inputRest (s : State) (id : Word) :
    (s.pushFree id).inputRest = s.inputRest := rfl

@[simp] theorem State.pushFree_inputLog (s : State) (id : Word) :
    (s.pushFree id).inputLog = s.inputLog := rfl

@[simp] theorem State.pushFree_output (s : State) (id : Word) :
    (s.pushFree id).output = s.output := rfl

@[simp] theorem State.pushFree_allocDraws (s : State) (id : Word) :
    (s.pushFree id).allocDraws = s.allocDraws := rfl

@[simp] theorem State.pushFree_allocRest (s : State) (id : Word) :
    (s.pushFree id).allocRest = s.allocRest := rfl

@[simp] theorem State.pushFree_reg (s : State) (id : Word) (r : Reg) :
    (s.pushFree id).reg r = s.reg r := rfl

@[simp] theorem State.pushFree_segment (s : State) (id : Word) (k : Word) :
    (s.pushFree id).segment k = s.segment k := rfl

@[simp] theorem State.pushFree_mapped (s : State) (id : Word) (k : Word) :
    (s.pushFree id).mapped k = s.mapped k := rfl

@[simp] theorem State.pushFree_segLength (s : State) (id : Word) (k : Word) :
    (s.pushFree id).segLength k = s.segLength k := rfl

@[simp] theorem State.pushFree_wordAt (s : State) (id : Word) (k off : Word) :
    (s.pushFree id).wordAt k off = s.wordAt k off := rfl

@[simp] theorem State.pushFree_inputOffer (s : State) (id : Word) :
    (s.pushFree id).inputOffer = s.inputOffer := rfl

@[simp] theorem State.pushFree_allocFails (s : State) (id : Word) :
    (s.pushFree id).allocFails = s.allocFails := rfl

/-! ### `State.takeDraw` -/

@[simp] theorem State.takeDraw_regs (s : State) :
    (s.takeDraw).regs = s.regs := rfl

@[simp] theorem State.takeDraw_pc (s : State) :
    (s.takeDraw).pc = s.pc := rfl

@[simp] theorem State.takeDraw_segs (s : State) :
    (s.takeDraw).segs = s.segs := rfl

@[simp] theorem State.takeDraw_free (s : State) :
    (s.takeDraw).free = s.free := rfl

@[simp] theorem State.takeDraw_hw (s : State) :
    (s.takeDraw).hw = s.hw := rfl

@[simp] theorem State.takeDraw_status (s : State) :
    (s.takeDraw).status = s.status := rfl

@[simp] theorem State.takeDraw_input (s : State) :
    (s.takeDraw).input = s.input := rfl

@[simp] theorem State.takeDraw_inputRest (s : State) :
    (s.takeDraw).inputRest = s.inputRest := rfl

@[simp] theorem State.takeDraw_inputLog (s : State) :
    (s.takeDraw).inputLog = s.inputLog := rfl

@[simp] theorem State.takeDraw_output (s : State) :
    (s.takeDraw).output = s.output := rfl

@[simp] theorem State.takeDraw_allocDraws (s : State) :
    (s.takeDraw).allocDraws = s.allocDraws.tail := rfl

@[simp] theorem State.takeDraw_allocRest (s : State) :
    (s.takeDraw).allocRest = s.allocRest := rfl

@[simp] theorem State.takeDraw_reg (s : State) (r : Reg) :
    (s.takeDraw).reg r = s.reg r := rfl

@[simp] theorem State.takeDraw_segment (s : State) (k : Word) :
    (s.takeDraw).segment k = s.segment k := rfl

@[simp] theorem State.takeDraw_mapped (s : State) (k : Word) :
    (s.takeDraw).mapped k = s.mapped k := rfl

@[simp] theorem State.takeDraw_segLength (s : State) (k : Word) :
    (s.takeDraw).segLength k = s.segLength k := rfl

@[simp] theorem State.takeDraw_wordAt (s : State) (k off : Word) :
    (s.takeDraw).wordAt k off = s.wordAt k off := rfl

@[simp] theorem State.takeDraw_inputOffer (s : State) :
    (s.takeDraw).inputOffer = s.inputOffer := rfl

@[simp] theorem State.takeDraw_idsExhausted (s : State) :
    (s.takeDraw).idsExhausted = s.idsExhausted := rfl

@[simp] theorem State.takeDraw_nextId (s : State) :
    (s.takeDraw).nextId = s.nextId := rfl

/-! ### `State.takeId` -/

@[simp] theorem State.takeId_regs (s : State) :
    (s.takeId).regs = s.regs := by
  unfold State.takeId; split <;> simp_all

@[simp] theorem State.takeId_pc (s : State) :
    (s.takeId).pc = s.pc := by
  unfold State.takeId; split <;> simp_all

@[simp] theorem State.takeId_segs (s : State) :
    (s.takeId).segs = s.segs := by
  unfold State.takeId; split <;> simp_all

@[simp] theorem State.takeId_free (s : State) :
    (s.takeId).free = s.free.tail := by
  unfold State.takeId; split <;> simp_all

@[simp] theorem State.takeId_hw (s : State) :
    (s.takeId).hw = if s.free.isEmpty then s.hw + 1#32 else s.hw := by
  unfold State.takeId; split <;> simp_all

@[simp] theorem State.takeId_status (s : State) :
    (s.takeId).status = s.status := by
  unfold State.takeId; split <;> simp_all

@[simp] theorem State.takeId_input (s : State) :
    (s.takeId).input = s.input := by
  unfold State.takeId; split <;> simp_all

@[simp] theorem State.takeId_inputRest (s : State) :
    (s.takeId).inputRest = s.inputRest := by
  unfold State.takeId; split <;> simp_all

@[simp] theorem State.takeId_inputLog (s : State) :
    (s.takeId).inputLog = s.inputLog := by
  unfold State.takeId; split <;> simp_all

@[simp] theorem State.takeId_output (s : State) :
    (s.takeId).output = s.output := by
  unfold State.takeId; split <;> simp_all

@[simp] theorem State.takeId_allocDraws (s : State) :
    (s.takeId).allocDraws = s.allocDraws := by
  unfold State.takeId; split <;> simp_all

@[simp] theorem State.takeId_allocRest (s : State) :
    (s.takeId).allocRest = s.allocRest := by
  unfold State.takeId; split <;> simp_all

@[simp] theorem State.takeId_reg (s : State) (r : Reg) :
    (s.takeId).reg r = s.reg r := by
  simp [State.reg]

@[simp] theorem State.takeId_segment (s : State) (k : Word) :
    (s.takeId).segment k = s.segment k := by
  simp [State.segment]

@[simp] theorem State.takeId_mapped (s : State) (k : Word) :
    (s.takeId).mapped k = s.mapped k := by
  simp [State.mapped]

@[simp] theorem State.takeId_segLength (s : State) (k : Word) :
    (s.takeId).segLength k = s.segLength k := by
  simp [State.segLength]

@[simp] theorem State.takeId_wordAt (s : State) (k off : Word) :
    (s.takeId).wordAt k off = s.wordAt k off := by
  simp [State.wordAt]

@[simp] theorem State.takeId_inputOffer (s : State) :
    (s.takeId).inputOffer = s.inputOffer := by
  simp [State.inputOffer]

@[simp] theorem State.takeId_allocFails (s : State) :
    (s.takeId).allocFails = s.allocFails := by
  simp [State.allocFails]

/-! ### `State.out` -/

@[simp] theorem State.out_regs (s : State) (b : Byte) :
    (s.out b).regs = s.regs := rfl

@[simp] theorem State.out_pc (s : State) (b : Byte) :
    (s.out b).pc = s.pc := rfl

@[simp] theorem State.out_segs (s : State) (b : Byte) :
    (s.out b).segs = s.segs := rfl

@[simp] theorem State.out_free (s : State) (b : Byte) :
    (s.out b).free = s.free := rfl

@[simp] theorem State.out_hw (s : State) (b : Byte) :
    (s.out b).hw = s.hw := rfl

@[simp] theorem State.out_status (s : State) (b : Byte) :
    (s.out b).status = s.status := rfl

@[simp] theorem State.out_input (s : State) (b : Byte) :
    (s.out b).input = s.input := rfl

@[simp] theorem State.out_inputRest (s : State) (b : Byte) :
    (s.out b).inputRest = s.inputRest := rfl

@[simp] theorem State.out_inputLog (s : State) (b : Byte) :
    (s.out b).inputLog = s.inputLog := rfl

@[simp] theorem State.out_output (s : State) (b : Byte) :
    (s.out b).output = s.output ++ [b] := rfl

@[simp] theorem State.out_allocDraws (s : State) (b : Byte) :
    (s.out b).allocDraws = s.allocDraws := rfl

@[simp] theorem State.out_allocRest (s : State) (b : Byte) :
    (s.out b).allocRest = s.allocRest := rfl

@[simp] theorem State.out_reg (s : State) (b : Byte) (r : Reg) :
    (s.out b).reg r = s.reg r := rfl

@[simp] theorem State.out_segment (s : State) (b : Byte) (k : Word) :
    (s.out b).segment k = s.segment k := rfl

@[simp] theorem State.out_mapped (s : State) (b : Byte) (k : Word) :
    (s.out b).mapped k = s.mapped k := rfl

@[simp] theorem State.out_segLength (s : State) (b : Byte) (k : Word) :
    (s.out b).segLength k = s.segLength k := rfl

@[simp] theorem State.out_wordAt (s : State) (b : Byte) (k off : Word) :
    (s.out b).wordAt k off = s.wordAt k off := rfl

@[simp] theorem State.out_inputOffer (s : State) (b : Byte) :
    (s.out b).inputOffer = s.inputOffer := rfl

@[simp] theorem State.out_allocFails (s : State) (b : Byte) :
    (s.out b).allocFails = s.allocFails := rfl

@[simp] theorem State.out_idsExhausted (s : State) (b : Byte) :
    (s.out b).idsExhausted = s.idsExhausted := rfl

@[simp] theorem State.out_nextId (s : State) (b : Byte) :
    (s.out b).nextId = s.nextId := rfl

/-! ### `State.takeInput` -/

@[simp] theorem State.takeInput_regs (s : State) (e : InputEvent) :
    (s.takeInput e).regs = s.regs := rfl

@[simp] theorem State.takeInput_pc (s : State) (e : InputEvent) :
    (s.takeInput e).pc = s.pc := rfl

@[simp] theorem State.takeInput_segs (s : State) (e : InputEvent) :
    (s.takeInput e).segs = s.segs := rfl

@[simp] theorem State.takeInput_free (s : State) (e : InputEvent) :
    (s.takeInput e).free = s.free := rfl

@[simp] theorem State.takeInput_hw (s : State) (e : InputEvent) :
    (s.takeInput e).hw = s.hw := rfl

@[simp] theorem State.takeInput_status (s : State) (e : InputEvent) :
    (s.takeInput e).status = s.status := rfl

@[simp] theorem State.takeInput_input (s : State) (e : InputEvent) :
    (s.takeInput e).input = s.input.tail := rfl

@[simp] theorem State.takeInput_inputRest (s : State) (e : InputEvent) :
    (s.takeInput e).inputRest = s.inputRest := rfl

@[simp] theorem State.takeInput_inputLog (s : State) (e : InputEvent) :
    (s.takeInput e).inputLog = s.inputLog ++ [e] := rfl

@[simp] theorem State.takeInput_output (s : State) (e : InputEvent) :
    (s.takeInput e).output = s.output := rfl

@[simp] theorem State.takeInput_allocDraws (s : State) (e : InputEvent) :
    (s.takeInput e).allocDraws = s.allocDraws := rfl

@[simp] theorem State.takeInput_allocRest (s : State) (e : InputEvent) :
    (s.takeInput e).allocRest = s.allocRest := rfl

@[simp] theorem State.takeInput_reg (s : State) (e : InputEvent) (r : Reg) :
    (s.takeInput e).reg r = s.reg r := rfl

@[simp] theorem State.takeInput_segment (s : State) (e : InputEvent) (k : Word) :
    (s.takeInput e).segment k = s.segment k := rfl

@[simp] theorem State.takeInput_mapped (s : State) (e : InputEvent) (k : Word) :
    (s.takeInput e).mapped k = s.mapped k := rfl

@[simp] theorem State.takeInput_segLength (s : State) (e : InputEvent) (k : Word) :
    (s.takeInput e).segLength k = s.segLength k := rfl

@[simp] theorem State.takeInput_wordAt (s : State) (e : InputEvent) (k off : Word) :
    (s.takeInput e).wordAt k off = s.wordAt k off := rfl

@[simp] theorem State.takeInput_allocFails (s : State) (e : InputEvent) :
    (s.takeInput e).allocFails = s.allocFails := rfl

@[simp] theorem State.takeInput_idsExhausted (s : State) (e : InputEvent) :
    (s.takeInput e).idsExhausted = s.idsExhausted := rfl

@[simp] theorem State.takeInput_nextId (s : State) (e : InputEvent) :
    (s.takeInput e).nextId = s.nextId := rfl

/-! ### `State.halt` -/

@[simp] theorem State.halt_regs (s : State) :
    (s.halt).regs = s.regs := rfl

@[simp] theorem State.halt_pc (s : State) :
    (s.halt).pc = s.pc := rfl

@[simp] theorem State.halt_segs (s : State) :
    (s.halt).segs = s.segs := rfl

@[simp] theorem State.halt_free (s : State) :
    (s.halt).free = s.free := rfl

@[simp] theorem State.halt_hw (s : State) :
    (s.halt).hw = s.hw := rfl

@[simp] theorem State.halt_status (s : State) :
    (s.halt).status = .halted := rfl

@[simp] theorem State.halt_input (s : State) :
    (s.halt).input = s.input := rfl

@[simp] theorem State.halt_inputRest (s : State) :
    (s.halt).inputRest = s.inputRest := rfl

@[simp] theorem State.halt_inputLog (s : State) :
    (s.halt).inputLog = s.inputLog := rfl

@[simp] theorem State.halt_output (s : State) :
    (s.halt).output = s.output := rfl

@[simp] theorem State.halt_allocDraws (s : State) :
    (s.halt).allocDraws = s.allocDraws := rfl

@[simp] theorem State.halt_allocRest (s : State) :
    (s.halt).allocRest = s.allocRest := rfl

@[simp] theorem State.halt_reg (s : State) (r : Reg) :
    (s.halt).reg r = s.reg r := rfl

@[simp] theorem State.halt_segment (s : State) (k : Word) :
    (s.halt).segment k = s.segment k := rfl

@[simp] theorem State.halt_mapped (s : State) (k : Word) :
    (s.halt).mapped k = s.mapped k := rfl

@[simp] theorem State.halt_segLength (s : State) (k : Word) :
    (s.halt).segLength k = s.segLength k := rfl

@[simp] theorem State.halt_wordAt (s : State) (k off : Word) :
    (s.halt).wordAt k off = s.wordAt k off := rfl

@[simp] theorem State.halt_inputOffer (s : State) :
    (s.halt).inputOffer = s.inputOffer := rfl

@[simp] theorem State.halt_allocFails (s : State) :
    (s.halt).allocFails = s.allocFails := rfl

@[simp] theorem State.halt_idsExhausted (s : State) :
    (s.halt).idsExhausted = s.idsExhausted := rfl

@[simp] theorem State.halt_nextId (s : State) :
    (s.halt).nextId = s.nextId := rfl

/-! ### `State.takeFault` -/

@[simp] theorem State.takeFault_regs (s : State) (f : FaultRecord) :
    (s.takeFault f).regs = s.regs := rfl

@[simp] theorem State.takeFault_pc (s : State) (f : FaultRecord) :
    (s.takeFault f).pc = s.pc := rfl

@[simp] theorem State.takeFault_segs (s : State) (f : FaultRecord) :
    (s.takeFault f).segs = s.segs := rfl

@[simp] theorem State.takeFault_free (s : State) (f : FaultRecord) :
    (s.takeFault f).free = s.free := rfl

@[simp] theorem State.takeFault_hw (s : State) (f : FaultRecord) :
    (s.takeFault f).hw = s.hw := rfl

@[simp] theorem State.takeFault_status (s : State) (f : FaultRecord) :
    (s.takeFault f).status = .faulted f := rfl

@[simp] theorem State.takeFault_input (s : State) (f : FaultRecord) :
    (s.takeFault f).input = s.input := rfl

@[simp] theorem State.takeFault_inputRest (s : State) (f : FaultRecord) :
    (s.takeFault f).inputRest = s.inputRest := rfl

@[simp] theorem State.takeFault_inputLog (s : State) (f : FaultRecord) :
    (s.takeFault f).inputLog = s.inputLog := rfl

@[simp] theorem State.takeFault_output (s : State) (f : FaultRecord) :
    (s.takeFault f).output = s.output := rfl

@[simp] theorem State.takeFault_allocDraws (s : State) (f : FaultRecord) :
    (s.takeFault f).allocDraws = s.allocDraws := rfl

@[simp] theorem State.takeFault_allocRest (s : State) (f : FaultRecord) :
    (s.takeFault f).allocRest = s.allocRest := rfl

@[simp] theorem State.takeFault_reg (s : State) (f : FaultRecord) (r : Reg) :
    (s.takeFault f).reg r = s.reg r := rfl

@[simp] theorem State.takeFault_segment (s : State) (f : FaultRecord) (k : Word) :
    (s.takeFault f).segment k = s.segment k := rfl

@[simp] theorem State.takeFault_mapped (s : State) (f : FaultRecord) (k : Word) :
    (s.takeFault f).mapped k = s.mapped k := rfl

@[simp] theorem State.takeFault_segLength (s : State) (f : FaultRecord) (k : Word) :
    (s.takeFault f).segLength k = s.segLength k := rfl

@[simp] theorem State.takeFault_wordAt (s : State) (f : FaultRecord) (k off : Word) :
    (s.takeFault f).wordAt k off = s.wordAt k off := rfl

@[simp] theorem State.takeFault_inputOffer (s : State) (f : FaultRecord) :
    (s.takeFault f).inputOffer = s.inputOffer := rfl

@[simp] theorem State.takeFault_allocFails (s : State) (f : FaultRecord) :
    (s.takeFault f).allocFails = s.allocFails := rfl

@[simp] theorem State.takeFault_idsExhausted (s : State) (f : FaultRecord) :
    (s.takeFault f).idsExhausted = s.idsExhausted := rfl

@[simp] theorem State.takeFault_nextId (s : State) (f : FaultRecord) :
    (s.takeFault f).nextId = s.nextId := rfl

/-! ### `State.raise` -/

@[simp] theorem State.raise_regs (s : State) (c : FaultCause) :
    (s.raise c).regs = s.regs := rfl

@[simp] theorem State.raise_pc (s : State) (c : FaultCause) :
    (s.raise c).pc = s.pc := rfl

@[simp] theorem State.raise_segs (s : State) (c : FaultCause) :
    (s.raise c).segs = s.segs := rfl

@[simp] theorem State.raise_free (s : State) (c : FaultCause) :
    (s.raise c).free = s.free := rfl

@[simp] theorem State.raise_hw (s : State) (c : FaultCause) :
    (s.raise c).hw = s.hw := rfl

@[simp] theorem State.raise_status (s : State) (c : FaultCause) :
    (s.raise c).status = .faulted { cause := c, faultPc := s.pc - 1#32, word := s.wordAt 0#32 (s.pc - 1#32) } := rfl

@[simp] theorem State.raise_input (s : State) (c : FaultCause) :
    (s.raise c).input = s.input := rfl

@[simp] theorem State.raise_inputRest (s : State) (c : FaultCause) :
    (s.raise c).inputRest = s.inputRest := rfl

@[simp] theorem State.raise_inputLog (s : State) (c : FaultCause) :
    (s.raise c).inputLog = s.inputLog := rfl

@[simp] theorem State.raise_output (s : State) (c : FaultCause) :
    (s.raise c).output = s.output := rfl

@[simp] theorem State.raise_allocDraws (s : State) (c : FaultCause) :
    (s.raise c).allocDraws = s.allocDraws := rfl

@[simp] theorem State.raise_allocRest (s : State) (c : FaultCause) :
    (s.raise c).allocRest = s.allocRest := rfl

@[simp] theorem State.raise_reg (s : State) (c : FaultCause) (r : Reg) :
    (s.raise c).reg r = s.reg r := rfl

@[simp] theorem State.raise_segment (s : State) (c : FaultCause) (k : Word) :
    (s.raise c).segment k = s.segment k := rfl

@[simp] theorem State.raise_mapped (s : State) (c : FaultCause) (k : Word) :
    (s.raise c).mapped k = s.mapped k := rfl

@[simp] theorem State.raise_segLength (s : State) (c : FaultCause) (k : Word) :
    (s.raise c).segLength k = s.segLength k := rfl

@[simp] theorem State.raise_wordAt (s : State) (c : FaultCause) (k off : Word) :
    (s.raise c).wordAt k off = s.wordAt k off := rfl

@[simp] theorem State.raise_inputOffer (s : State) (c : FaultCause) :
    (s.raise c).inputOffer = s.inputOffer := rfl

@[simp] theorem State.raise_allocFails (s : State) (c : FaultCause) :
    (s.raise c).allocFails = s.allocFails := rfl

@[simp] theorem State.raise_idsExhausted (s : State) (c : FaultCause) :
    (s.raise c).idsExhausted = s.idsExhausted := rfl

@[simp] theorem State.raise_nextId (s : State) (c : FaultCause) :
    (s.raise c).nextId = s.nextId := rfl

/-! ### `State.raiseAtFetch` -/

@[simp] theorem State.raiseAtFetch_regs (s : State) (c : FaultCause) :
    (s.raiseAtFetch c).regs = s.regs := rfl

@[simp] theorem State.raiseAtFetch_pc (s : State) (c : FaultCause) :
    (s.raiseAtFetch c).pc = s.pc := rfl

@[simp] theorem State.raiseAtFetch_segs (s : State) (c : FaultCause) :
    (s.raiseAtFetch c).segs = s.segs := rfl

@[simp] theorem State.raiseAtFetch_free (s : State) (c : FaultCause) :
    (s.raiseAtFetch c).free = s.free := rfl

@[simp] theorem State.raiseAtFetch_hw (s : State) (c : FaultCause) :
    (s.raiseAtFetch c).hw = s.hw := rfl

@[simp] theorem State.raiseAtFetch_status (s : State) (c : FaultCause) :
    (s.raiseAtFetch c).status = .faulted { cause := c, faultPc := s.pc, word := none } := rfl

@[simp] theorem State.raiseAtFetch_input (s : State) (c : FaultCause) :
    (s.raiseAtFetch c).input = s.input := rfl

@[simp] theorem State.raiseAtFetch_inputRest (s : State) (c : FaultCause) :
    (s.raiseAtFetch c).inputRest = s.inputRest := rfl

@[simp] theorem State.raiseAtFetch_inputLog (s : State) (c : FaultCause) :
    (s.raiseAtFetch c).inputLog = s.inputLog := rfl

@[simp] theorem State.raiseAtFetch_output (s : State) (c : FaultCause) :
    (s.raiseAtFetch c).output = s.output := rfl

@[simp] theorem State.raiseAtFetch_allocDraws (s : State) (c : FaultCause) :
    (s.raiseAtFetch c).allocDraws = s.allocDraws := rfl

@[simp] theorem State.raiseAtFetch_allocRest (s : State) (c : FaultCause) :
    (s.raiseAtFetch c).allocRest = s.allocRest := rfl

@[simp] theorem State.raiseAtFetch_reg (s : State) (c : FaultCause) (r : Reg) :
    (s.raiseAtFetch c).reg r = s.reg r := rfl

@[simp] theorem State.raiseAtFetch_segment (s : State) (c : FaultCause) (k : Word) :
    (s.raiseAtFetch c).segment k = s.segment k := rfl

@[simp] theorem State.raiseAtFetch_mapped (s : State) (c : FaultCause) (k : Word) :
    (s.raiseAtFetch c).mapped k = s.mapped k := rfl

@[simp] theorem State.raiseAtFetch_segLength (s : State) (c : FaultCause) (k : Word) :
    (s.raiseAtFetch c).segLength k = s.segLength k := rfl

@[simp] theorem State.raiseAtFetch_wordAt (s : State) (c : FaultCause) (k off : Word) :
    (s.raiseAtFetch c).wordAt k off = s.wordAt k off := rfl

@[simp] theorem State.raiseAtFetch_inputOffer (s : State) (c : FaultCause) :
    (s.raiseAtFetch c).inputOffer = s.inputOffer := rfl

@[simp] theorem State.raiseAtFetch_allocFails (s : State) (c : FaultCause) :
    (s.raiseAtFetch c).allocFails = s.allocFails := rfl

@[simp] theorem State.raiseAtFetch_idsExhausted (s : State) (c : FaultCause) :
    (s.raiseAtFetch c).idsExhausted = s.idsExhausted := rfl

@[simp] theorem State.raiseAtFetch_nextId (s : State) (c : FaultCause) :
    (s.raiseAtFetch c).nextId = s.nextId := rfl

end Sys2Proof.Machine
end

