-- ==== Sys2Proof/Laws/Ops.lean ====
section
/-! SUPPORT. Laws/Ops.lean: for each shared operation, once, everything it can do. Later proofs cite these lemmas
and never unfold the operation. -/

namespace Sys2Proof.Machine

/-! ### Registers -/

theorem State.reg_setReg (s : State) (i j : Reg) (v : Word) :
    (s.setReg i v).reg j = if j = i then v else s.reg j := by
  simp only [State.setReg, State.reg, Fin.getElem_fin, Vector.getElem_set, Fin.ext_iff, eq_comm]

@[simp] theorem State.reg_setReg_self (s : State) (i : Reg) (v : Word) : (s.setReg i v).reg i = v := by
  simp [State.reg_setReg]

theorem State.reg_setReg_ne (s : State) {i j : Reg} (v : Word) (h : j ≠ i) : (s.setReg i v).reg j = s.reg j := by
  simp [State.reg_setReg, h]

@[simp] theorem State.reset_reg (r : Reg) : State.reset.reg r = 0#32 := by
  simp [State.reset, State.reg]

/-! ### The indexer -/

theorem State.mapped_iff (s : State) (id : Word) : s.mapped id = true ↔ ∃ g, s.segment id = some g := by
  simp [State.mapped, Option.isSome_iff_exists]

theorem State.segment_setSegment (s : State) (id j : Word) (g : Segment) :
    (s.setSegment id g).segment j = if j = id then some g else s.segment j := by
  simp [State.segment, tableGet_tablePut, BitVec.toNat_inj]

theorem State.segment_dropSegment (s : State) (id j : Word) :
    (s.dropSegment id).segment j = if j = id then none else s.segment j := by
  simp [State.segment, tableGet_tableErase, BitVec.toNat_inj]

theorem State.segLength_setSegment (s : State) (id j : Word) (g : Segment) :
    (s.setSegment id g).segLength j = if j = id then some g.length else s.segLength j := by
  simp only [State.segLength, State.segment_setSegment]; split_ifs <;> rfl

theorem State.segLength_dropSegment (s : State) (id j : Word) :
    (s.dropSegment id).segLength j = if j = id then none else s.segLength j := by
  simp only [State.segLength, State.segment_dropSegment]; split_ifs <;> rfl

theorem State.wordAt_setSegment (s : State) (id j off : Word) (g : Segment) :
    (s.setSegment id g).wordAt j off = if j = id then g.read off.toNat else s.wordAt j off := by
  simp only [State.wordAt, State.segment_setSegment]; split_ifs <;> rfl

theorem State.wordAt_dropSegment (s : State) (id j off : Word) :
    (s.dropSegment id).wordAt j off = if j = id then none else s.wordAt j off := by
  simp only [State.wordAt, State.segment_dropSegment]; split_ifs <;> rfl

/-- A location exists exactly below the length of a mapped segment. -/
theorem State.wordAt_eq_some_iff (s : State) (id off v : Word) :
    s.wordAt id off = some v ↔ ∃ g, s.segment id = some g ∧ off.toNat < g.length ∧ g.word off.toNat = v := by
  simp only [State.wordAt, Option.bind_eq_some_iff, Segment.read]
  refine exists_congr fun g => and_congr_right fun _ => ?_
  split_ifs with h <;> simp [h]

/-- What `SegRead` answers (R38). -/
theorem State.segRead_cases (s : State) (id off : Word) :
    (s.segLength id = none ∧ s.segRead id off = .error (.segmentNotMapped id off)) ∨
    (∃ n, s.segLength id = some n ∧ n ≤ off.toNat ∧ s.segRead id off = .error (.offsetOutOfRange id off n)) ∨
    (∃ v, s.wordAt id off = some v ∧ s.segRead id off = .ok v) := by
  unfold State.segRead State.segLength State.wordAt Segment.read
  cases h : s.segment id with
  | none => exact .inl ⟨rfl, rfl⟩
  | some g =>
    by_cases ho : g.length ≤ off.toNat
    · exact .inr (.inl ⟨g.length, rfl, ho, by simp [ho]⟩)
    · exact .inr (.inr ⟨g.word off.toNat, by simp [Nat.lt_of_not_le ho], by simp [ho]⟩)

/-- What `SegWrite` answers (R39). -/
theorem State.segWrite_cases (s : State) (id off v : Word) :
    (s.segLength id = none ∧ s.segWrite id off v = .error (.segmentNotMapped id off)) ∨
    (∃ n, s.segLength id = some n ∧ n ≤ off.toNat ∧ s.segWrite id off v = .error (.offsetOutOfRange id off n)) ∨
    (∃ g, s.segment id = some g ∧ off.toNat < g.length ∧
      s.segWrite id off v = .ok (s.setSegment id (g.write off.toNat v))) := by
  unfold State.segWrite State.segLength
  cases h : s.segment id with
  | none => exact .inl ⟨rfl, rfl⟩
  | some g =>
    by_cases ho : g.length ≤ off.toNat
    · exact .inr (.inl ⟨g.length, rfl, ho, by simp [ho]⟩)
    · exact .inr (.inr ⟨g, rfl, Nat.lt_of_not_le ho, by simp [ho]⟩)

/-- What a written word does to every location: its own, and no other (R39). -/
theorem State.wordAt_write (s : State) {id off : Word} {g : Segment} (hg : s.segment id = some g)
    (ho : off.toNat < g.length) (v j k : Word) :
    (s.setSegment id (g.write off.toNat v)).wordAt j k = if (j, k) = (id, off) then some v else s.wordAt j k := by
  rw [State.wordAt_setSegment]
  by_cases hj : j = id
  · subst hj
    simp only [Segment.write_read, BitVec.toNat_inj, ho, and_true, if_true, Prod.mk.injEq, true_and]
    simp [State.wordAt, hg]
  · simp [hj]

/-- Writing a word changes no length (R30, R39). -/
theorem State.segLength_write (s : State) {id : Word} {g : Segment} (hg : s.segment id = some g) (off : Nat)
    (v j : Word) : (s.setSegment id (g.write off v)).segLength j = s.segLength j := by
  rw [State.segLength_setSegment]
  split_ifs with h
  · simp [h, State.segLength, hg]
  · rfl

/-- What `Fetch` answers (R40). -/
theorem State.fetch_cases (s : State) :
    (∃ w, s.wordAt 0#32 s.pc = some w ∧ s.fetch = .ok w) ∨
    (s.wordAt 0#32 s.pc = none ∧ s.fetch = .error (.pcOutOfRange ((s.segLength 0#32).getD 0))) := by
  unfold State.fetch
  cases h : s.wordAt 0#32 s.pc with
  | none => exact .inr ⟨rfl, rfl⟩
  | some w => exact .inl ⟨w, rfl, rfl⟩

theorem State.fetch_eq_ok_iff (s : State) (w : Word) : s.fetch = .ok w ↔ s.wordAt 0#32 s.pc = some w := by
  rcases s.fetch_cases with ⟨v, hv, hf⟩ | ⟨hv, hf⟩ <;> simp [hv, hf]

/-- With segment 0 mapped, `Fetch` faults exactly at or past its end (R40). -/
theorem State.fetch_past_end (s : State) {n : Nat} (hn : s.segLength 0#32 = some n) (h : n ≤ s.pc.toNat) :
    s.fetch = .error (.pcOutOfRange n) := by
  have hw : s.wordAt 0#32 s.pc = none := by
    simp only [State.segLength, Option.map_eq_some_iff] at hn
    obtain ⟨g, hg, rfl⟩ := hn
    simp [State.wordAt, hg, Segment.read, Nat.not_lt.2 h]
  simp [State.fetch, hw, hn]

/-! ### The allocator -/

/-- What `SegAlloc` answers (R42, R122). -/
theorem State.segAlloc_cases (s : State) (n : Word) :
    (s.idsExhausted = true ∧ s.segAlloc n = .error (.segmentIdExhausted n)) ∨
    (s.idsExhausted = false ∧ s.allocFails = true ∧ s.segAlloc n = .error (.allocationFailure n)) ∨
    (s.idsExhausted = false ∧ s.allocFails = false ∧
      s.segAlloc n = .ok (s.nextId, s.takeDraw.takeId.setSegment s.nextId (Segment.zeros n.toNat))) := by
  unfold State.segAlloc
  cases h1 : s.idsExhausted <;> cases h2 : s.allocFails <;> simp

theorem State.idsExhausted_iff (s : State) : s.idsExhausted = true ↔ s.free = [] ∧ s.hw = 0xFFFFFFFF#32 := by
  simp [State.idsExhausted]

/-- What `SegFree` answers (R43). -/
theorem State.segFree_cases (s : State) (id : Word) :
    (id = 0#32 ∧ s.segFree id = .error .unmapSegmentZero) ∨
    (id ≠ 0#32 ∧ s.segLength id = none ∧ s.segFree id = .error (.unmapNotMapped id)) ∨
    (id ≠ 0#32 ∧ s.mapped id = true ∧ s.segFree id = .ok ((s.dropSegment id).pushFree id)) := by
  unfold State.segFree State.segLength State.mapped
  by_cases h0 : id = 0#32
  · exact .inl ⟨h0, by simp [h0]⟩
  · cases h : s.segment id with
    | none => exact .inr (.inl ⟨h0, rfl, by simp [h0]⟩)
    | some g => exact .inr (.inr ⟨h0, rfl, by simp [h0]⟩)

/-- What `SegReplace0` answers (R44). -/
theorem State.segReplace0_cases (s : State) (id : Word) :
    (s.segLength id = none ∧ s.segReplace0 id = .error (.loadProgramNotMapped id)) ∨
    (∃ g, s.segment id = some g ∧ s.segReplace0 id = .ok (s.setSegment 0#32 g)) := by
  unfold State.segReplace0 State.segLength
  cases h : s.segment id with
  | none => exact .inl ⟨rfl, rfl⟩
  | some g => exact .inr ⟨g, rfl, rfl⟩

/-! ### Streams, commit -/

/-- What the host offers (R98, R99). -/
theorem State.inputOffer_cases (s : State) :
    (∃ o rest, s.input = o :: rest ∧ s.inputOffer = o) ∨ (s.input = [] ∧ s.inputOffer = s.inputRest) := by
  unfold State.inputOffer
  cases h : s.input with
  | nil => exact .inr ⟨rfl, rfl⟩
  | cons o rest => exact .inl ⟨o, rest, rfl, rfl⟩

/-- After an increment, the wait is the state before it, but for the host's offer that is past (R112). -/
@[simp] theorem State.wait_advance (s : State) : s.advance.wait = { s with input := s.input.tail } := by
  simp [State.advance, State.wait]

/-- A host that has answered the pending Input offers that event (R98). -/
@[simp] theorem State.answerInput_inputOffer (s : State) (e : InputEvent) :
    (s.answerInput e).inputOffer = some e := rfl

@[simp] theorem State.fetchPc_advance (s : State) : s.advance.fetchPc = s.pc := by
  simp [State.advance, State.fetchPc]

/-- The record of a fault raised after the increment: the fetch address, and the word fetched there (R119, R121). -/
theorem State.raise_advance_status (s : State) (c : FaultCause) :
    (s.advance.raise c).status = .faulted { cause := c, faultPc := s.pc, word := s.wordAt 0#32 s.pc } := by
  simp

@[simp] theorem State.commit_ok (s t : State) : s.commit (.ok t) = .next t := rfl

@[simp] theorem State.commit_error (s : State) (c : FaultCause) : s.commit (.error c) = .next (s.raise c) := rfl

/-- A committed handler always answers a next state (R111). -/
theorem State.commit_cases (s : State) (r : Except FaultCause State) :
    (∃ t, r = .ok t ∧ s.commit r = .next t) ∨ (∃ c, r = .error c ∧ s.commit r = .next (s.raise c)) := by
  cases r with
  | ok t => exact .inl ⟨t, rfl, rfl⟩
  | error c => exact .inr ⟨c, rfl, rfl⟩

/-! ### The memory's canonical form is kept by every memory operation -/

theorem State.wf_setSegment {s : State} (h : Memory.wf s.segs) (id : Word) {g : Segment} (hg : g.wf) :
    Memory.wf (s.setSegment id g).segs := Memory.wf_tablePut h id hg

theorem State.wf_dropSegment {s : State} (h : Memory.wf s.segs) (id : Word) :
    Memory.wf (s.dropSegment id).segs := Memory.wf_tableErase h id.toNat

theorem State.wf_segment {s : State} (h : Memory.wf s.segs) {id : Word} {g : Segment} (hg : s.segment id = some g) :
    g.wf := Memory.wf_tableGet h hg

theorem State.wf_segWrite {s t : State} (h : Memory.wf s.segs) {id off v : Word} (ht : s.segWrite id off v = .ok t) :
    Memory.wf t.segs := by
  rcases s.segWrite_cases id off v with ⟨-, he⟩ | ⟨n, -, -, he⟩ | ⟨g, hg, ho, he⟩
  · simp [he] at ht
  · simp [he] at ht
  · obtain rfl : s.setSegment id (g.write off.toNat v) = t := by simpa [he] using ht
    exact State.wf_setSegment h id (Segment.write_wf (State.wf_segment h hg) ho v)

theorem State.wf_segAlloc {s t : State} (h : Memory.wf s.segs) {n id : Word} (ht : s.segAlloc n = .ok (id, t)) :
    Memory.wf t.segs := by
  rcases s.segAlloc_cases n with ⟨-, he⟩ | ⟨-, -, he⟩ | ⟨-, -, he⟩
  · simp [he] at ht
  · simp [he] at ht
  · obtain ⟨-, rfl⟩ : s.nextId = id ∧ s.takeDraw.takeId.setSegment s.nextId (Segment.zeros n.toNat) = t := by
      simpa [he] using ht
    refine State.wf_setSegment (by simpa using h) _ (Segment.zeros_wf ?_)
    have := n.isLt
    show n.toNat ≤ 2 ^ 32 - 1
    omega

theorem State.wf_segFree {s t : State} (h : Memory.wf s.segs) {id : Word} (ht : s.segFree id = .ok t) :
    Memory.wf t.segs := by
  rcases s.segFree_cases id with ⟨-, he⟩ | ⟨-, -, he⟩ | ⟨-, -, he⟩
  · simp [he] at ht
  · simp [he] at ht
  · obtain rfl : (s.dropSegment id).pushFree id = t := by simpa [he] using ht
    exact State.wf_dropSegment h id

theorem State.wf_segReplace0 {s t : State} (h : Memory.wf s.segs) {id : Word} (ht : s.segReplace0 id = .ok t) :
    Memory.wf t.segs := by
  rcases s.segReplace0_cases id with ⟨-, he⟩ | ⟨g, hg, he⟩
  · simp [he] at ht
  · obtain rfl : s.setSegment 0#32 g = t := by simpa [he] using ht
    exact State.wf_setSegment h _ (State.wf_segment h hg)

/-- The memory of the reset state has the canonical form. -/
theorem State.wf_reset : Memory.wf State.reset.segs := by decide

end Sys2Proof.Machine
end

