-- ==== Sys2Proof/Laws/PerInstr.lean ====
section
/-! SUPPORT. Laws/PerInstr.lean: statements about every instruction as syntax, one lemma per constructor.
`EncodedOpcode`: the word that encodes an instruction carries, in bits 31..28, the number R64 gives its operation. -/

namespace Sys2Proof.Laws.EncodedOpcode

/-- The opcode field of the encoded word is the instruction's number (R60, R64, R69). -/
def Statement (i : Instr) : Prop := opField (encode i) = i.opcode

theorem cmov (a b c : Reg) : Statement (.cmov a b c) := opField_enc3 _ a b c
theorem load (a b c : Reg) : Statement (.load a b c) := opField_enc3 _ a b c
theorem store (a b c : Reg) : Statement (.store a b c) := opField_enc3 _ a b c
theorem add (a b c : Reg) : Statement (.add a b c) := opField_enc3 _ a b c
theorem mul (a b c : Reg) : Statement (.mul a b c) := opField_enc3 _ a b c
theorem div (a b c : Reg) : Statement (.div a b c) := opField_enc3 _ a b c
theorem nand (a b c : Reg) : Statement (.nand a b c) := opField_enc3 _ a b c
theorem halt : Statement .halt := opField_enc3 _ 0 0 0
theorem map (b c : Reg) : Statement (.map b c) := opField_enc3 _ 0 b c
theorem unmap (c : Reg) : Statement (.unmap c) := opField_enc3 _ 0 0 c
theorem out (c : Reg) : Statement (.out c) := opField_enc3 _ 0 0 c
theorem inp (c : Reg) : Statement (.inp c) := opField_enc3 _ 0 0 c
theorem loadprog (b c : Reg) : Statement (.loadprog b c) := opField_enc3 _ 0 b c
theorem loadval (a : Reg) (imm : Word) : Statement (.loadval a imm) := opField_encLV a _

end Sys2Proof.Laws.EncodedOpcode
end

