-- ==== Sys2Proof/Laws/Step.lean ====
section
/-! SUPPORT. Laws/Step.lean: what each handler, and what one step, can do. Every statement about steps is derived
from `step_next_cases` and the `exec…_cases` lemmas; none unfolds `step` or `exec` again. -/

namespace Sys2Proof.Machine

/-! ### The handlers -/

/-- Conditional Move (R80). -/
theorem execCmov_cases (a b c : Reg) (s : State) :
    (s.reg c ≠ 0#32 ∧ exec (.cmov a b c) s = .next (s.setReg a (s.reg b))) ∨
    (s.reg c = 0#32 ∧ exec (.cmov a b c) s = .next s) := by
  simp only [exec, execCmov, State.condition]
  by_cases h : s.reg c = 0#32 <;> simp [h]

/-- Segmented Load (R81). -/
theorem execLoad_cases (a b c : Reg) (s : State) :
    (s.segLength (s.reg b) = none ∧
      exec (.load a b c) s = .next (s.raise (.segmentNotMapped (s.reg b) (s.reg c)))) ∨
    (∃ n, s.segLength (s.reg b) = some n ∧ n ≤ (s.reg c).toNat ∧
      exec (.load a b c) s = .next (s.raise (.offsetOutOfRange (s.reg b) (s.reg c) n))) ∨
    (∃ v, s.wordAt (s.reg b) (s.reg c) = some v ∧ exec (.load a b c) s = .next (s.setReg a v)) := by
  simp only [exec, execLoad]
  rcases s.segRead_cases (s.reg b) (s.reg c) with ⟨h, he⟩ | ⟨n, h, ho, he⟩ | ⟨v, h, he⟩
  · exact .inl ⟨h, by simp [he, Except.map]⟩
  · exact .inr (.inl ⟨n, h, ho, by simp [he, Except.map]⟩)
  · exact .inr (.inr ⟨v, h, by simp [he, Except.map]⟩)

/-- Segmented Store (R82). -/
theorem execStore_cases (a b c : Reg) (s : State) :
    (s.segLength (s.reg a) = none ∧
      exec (.store a b c) s = .next (s.raise (.segmentNotMapped (s.reg a) (s.reg b)))) ∨
    (∃ n, s.segLength (s.reg a) = some n ∧ n ≤ (s.reg b).toNat ∧
      exec (.store a b c) s = .next (s.raise (.offsetOutOfRange (s.reg a) (s.reg b) n))) ∨
    (∃ g, s.segment (s.reg a) = some g ∧ (s.reg b).toNat < g.length ∧
      exec (.store a b c) s = .next (s.setSegment (s.reg a) (g.write (s.reg b).toNat (s.reg c)))) := by
  simp only [exec, execStore]
  rcases s.segWrite_cases (s.reg a) (s.reg b) (s.reg c) with ⟨h, he⟩ | ⟨n, h, ho, he⟩ | ⟨g, h, ho, he⟩
  · exact .inl ⟨h, by simp [he]⟩
  · exact .inr (.inl ⟨n, h, ho, by simp [he]⟩)
  · exact .inr (.inr ⟨g, h, ho, by simp [he]⟩)

/-- Add (R86). -/
theorem execAdd_eq (a b c : Reg) (s : State) :
    exec (.add a b c) s = .next (s.setReg a (wrap ((s.reg b).toNat + (s.reg c).toNat))) := rfl

/-- Multiply (R87). -/
theorem execMul_eq (a b c : Reg) (s : State) :
    exec (.mul a b c) s = .next (s.setReg a (wrap ((s.reg b).toNat * (s.reg c).toNat))) := rfl

/-- Divide (R88). -/
theorem execDiv_cases (a b c : Reg) (s : State) :
    (s.reg c = 0#32 ∧ exec (.div a b c) s = .next (s.raise (.divideByZero c))) ∨
    (s.reg c ≠ 0#32 ∧ exec (.div a b c) s = .next (s.setReg a (quotient (s.reg b) (s.reg c)))) := by
  simp only [exec, execDiv]
  by_cases h : s.reg c = 0#32 <;> simp [h]

/-- Bitwise NAND (R89). -/
theorem execNand_eq (a b c : Reg) (s : State) :
    exec (.nand a b c) s = .next (s.setReg a (~~~ (s.reg b &&& s.reg c))) := rfl

/-- Halt (R91). -/
theorem execHalt_eq (s : State) : exec .halt s = .next s.halt := rfl

/-- Map Segment (R92). -/
theorem execMap_cases (b c : Reg) (s : State) :
    (s.idsExhausted = true ∧ exec (.map b c) s = .next (s.raise (.segmentIdExhausted (s.reg c)))) ∨
    (s.idsExhausted = false ∧ s.allocFails = true ∧
      exec (.map b c) s = .next (s.raise (.allocationFailure (s.reg c)))) ∨
    (s.idsExhausted = false ∧ s.allocFails = false ∧
      exec (.map b c) s = .next
        ((s.takeDraw.takeId.setSegment s.nextId (Segment.zeros (s.reg c).toNat)).setReg b s.nextId)) := by
  simp only [exec, execMap]
  rcases s.segAlloc_cases (s.reg c) with ⟨h, he⟩ | ⟨h, ha, he⟩ | ⟨h, ha, he⟩
  · exact .inl ⟨h, by simp [he, Except.map]⟩
  · exact .inr (.inl ⟨h, ha, by simp [he, Except.map]⟩)
  · exact .inr (.inr ⟨h, ha, by simp [he, Except.map]⟩)

/-- Unmap Segment (R93). -/
theorem execUnmap_cases (c : Reg) (s : State) :
    (s.reg c = 0#32 ∧ exec (.unmap c) s = .next (s.raise .unmapSegmentZero)) ∨
    (s.reg c ≠ 0#32 ∧ s.segLength (s.reg c) = none ∧
      exec (.unmap c) s = .next (s.raise (.unmapNotMapped (s.reg c)))) ∨
    (s.reg c ≠ 0#32 ∧ s.mapped (s.reg c) = true ∧
      exec (.unmap c) s = .next ((s.dropSegment (s.reg c)).pushFree (s.reg c))) := by
  simp only [exec, execUnmap]
  rcases s.segFree_cases (s.reg c) with ⟨h, he⟩ | ⟨h, hn, he⟩ | ⟨h, hm, he⟩
  · exact .inl ⟨h, by simp [he]⟩
  · exact .inr (.inl ⟨h, hn, by simp [he]⟩)
  · exact .inr (.inr ⟨h, hm, by simp [he]⟩)

/-- Output (R95). -/
theorem execOut_eq (c : Reg) (s : State) : exec (.out c) s = .next (s.out (lowByte (s.reg c))) := rfl

/-- Input (R96, R98). -/
theorem execInp_cases (c : Reg) (s : State) :
    (∃ e, s.inputOffer = some e ∧ exec (.inp c) s = .next ((s.takeInput e).setReg c (inputValue e))) ∨
    (s.inputOffer = none ∧ exec (.inp c) s = .next s.wait) := by
  simp only [exec, execInp]
  cases h : s.inputOffer with
  | none => exact .inr ⟨rfl, rfl⟩
  | some e => exact .inl ⟨e, rfl, rfl⟩

/-- Load Program (R100). -/
theorem execLoadprog_cases (b c : Reg) (s : State) :
    (s.reg b = 0#32 ∧ exec (.loadprog b c) s = .next (s.setPc (s.reg c))) ∨
    (s.reg b ≠ 0#32 ∧ s.segLength (s.reg b) = none ∧
      exec (.loadprog b c) s = .next (s.raise (.loadProgramNotMapped (s.reg b)))) ∨
    (∃ g, s.reg b ≠ 0#32 ∧ s.segment (s.reg b) = some g ∧
      exec (.loadprog b c) s = .next ((s.setSegment 0#32 g).setPc (s.reg c))) := by
  simp only [exec, execLoadprog]
  by_cases h : s.reg b = 0#32
  · exact .inl ⟨h, by simp [h, Except.map]⟩
  · rcases s.segReplace0_cases (s.reg b) with ⟨hn, he⟩ | ⟨g, hg, he⟩
    · exact .inr (.inl ⟨h, hn, by simp [h, he, Except.map]⟩)
    · exact .inr (.inr ⟨g, h, hg, by simp [h, he, Except.map]⟩)

/-- Load Value (R101). -/
theorem execLoadval_eq (a : Reg) (imm : Word) (s : State) :
    exec (.loadval a imm) s = .next (s.setReg a imm) := rfl

/-! ### Every handler at once -/

/-- All that a handler can have done to `s` when it answers a next state: the seven shapes of a step's effect that
R74 and R75 list, a fault, a wait, or nothing. -/
inductive HandlerEffect (s : State) : Instr → State → Prop
  /-- A fault of the handler, never `PcOutOfRange`. -/
  | raised {i : Instr} {c : FaultCause} (hc : ∀ n, c ≠ .pcOutOfRange n) (hh : i ≠ .halt) :
      HandlerEffect s i (s.raise c)
  /-- One register written, nothing else. -/
  | wroteRegister {i : Instr} {r : Reg} {v : Word} (hh : i ≠ .halt) (hl : ∀ b c, i ≠ .loadprog b c) :
      HandlerEffect s i (s.setReg r v)
  /-- A Conditional Move whose condition does not hold. -/
  | nothing {i : Instr} (hh : i ≠ .halt) (hl : ∀ b c, i ≠ .loadprog b c) : HandlerEffect s i s
  | stored {a b c : Reg} {g : Segment} (hg : s.segment (s.reg a) = some g) (ho : (s.reg b).toNat < g.length) :
      HandlerEffect s (.store a b c) (s.setSegment (s.reg a) (g.write (s.reg b).toNat (s.reg c)))
  | halted : HandlerEffect s .halt s.halt
  | allocated {b c : Reg} (hx : s.idsExhausted = false) (ha : s.allocFails = false) :
      HandlerEffect s (.map b c)
        ((s.takeDraw.takeId.setSegment s.nextId (Segment.zeros (s.reg c).toNat)).setReg b s.nextId)
  | freed {c : Reg} (h0 : s.reg c ≠ 0#32) (hm : s.mapped (s.reg c) = true) :
      HandlerEffect s (.unmap c) ((s.dropSegment (s.reg c)).pushFree (s.reg c))
  | wroteByte {c : Reg} : HandlerEffect s (.out c) (s.out (lowByte (s.reg c)))
  | tookEvent {c : Reg} {e : InputEvent} (he : s.inputOffer = some e) :
      HandlerEffect s (.inp c) ((s.takeInput e).setReg c (inputValue e))
  | waited {c : Reg} (he : s.inputOffer = none) : HandlerEffect s (.inp c) s.wait
  | jumped {b c : Reg} (h0 : s.reg b = 0#32) : HandlerEffect s (.loadprog b c) (s.setPc (s.reg c))
  | replaced {b c : Reg} {g : Segment} (h0 : s.reg b ≠ 0#32) (hg : s.segment (s.reg b) = some g) :
      HandlerEffect s (.loadprog b c) ((s.setSegment 0#32 g).setPc (s.reg c))

/-- The inversion lemma of `exec`. -/
theorem exec_next_effect {i : Instr} {s t : State} (h : exec i s = .next t) : HandlerEffect s i t := by
  have inj : ∀ {u}, exec i s = .next u → u = t := fun hu => by rw [h] at hu; exact (Host.Outcome.next.inj hu).symm
  cases i with
  | cmov a b c =>
    rcases execCmov_cases a b c s with ⟨_, e⟩ | ⟨_, e⟩
    · exact inj e ▸ .wroteRegister (by simp) (by simp)
    · exact inj e ▸ .nothing (by simp) (by simp)
  | load a b c =>
    rcases execLoad_cases a b c s with ⟨_, e⟩ | ⟨_, _, _, e⟩ | ⟨_, _, e⟩
    · exact inj e ▸ .raised (by simp) (by simp)
    · exact inj e ▸ .raised (by simp) (by simp)
    · exact inj e ▸ .wroteRegister (by simp) (by simp)
  | store a b c =>
    rcases execStore_cases a b c s with ⟨_, e⟩ | ⟨_, _, _, e⟩ | ⟨g, hg, ho, e⟩
    · exact inj e ▸ .raised (by simp) (by simp)
    · exact inj e ▸ .raised (by simp) (by simp)
    · exact inj e ▸ .stored hg ho
  | add a b c => exact inj (execAdd_eq a b c s) ▸ .wroteRegister (by simp) (by simp)
  | mul a b c => exact inj (execMul_eq a b c s) ▸ .wroteRegister (by simp) (by simp)
  | nand a b c => exact inj (execNand_eq a b c s) ▸ .wroteRegister (by simp) (by simp)
  | loadval a imm => exact inj (execLoadval_eq a imm s) ▸ .wroteRegister (by simp) (by simp)
  | div a b c =>
    rcases execDiv_cases a b c s with ⟨_, e⟩ | ⟨_, e⟩
    · exact inj e ▸ .raised (by simp) (by simp)
    · exact inj e ▸ .wroteRegister (by simp) (by simp)
  | halt => exact inj (execHalt_eq s) ▸ .halted
  | map b c =>
    rcases execMap_cases b c s with ⟨_, e⟩ | ⟨_, _, e⟩ | ⟨hx, ha, e⟩
    · exact inj e ▸ .raised (by simp) (by simp)
    · exact inj e ▸ .raised (by simp) (by simp)
    · exact inj e ▸ .allocated hx ha
  | unmap c =>
    rcases execUnmap_cases c s with ⟨_, e⟩ | ⟨_, _, e⟩ | ⟨h0, hm, e⟩
    · exact inj e ▸ .raised (by simp) (by simp)
    · exact inj e ▸ .raised (by simp) (by simp)
    · exact inj e ▸ .freed h0 hm
  | out c => exact inj (execOut_eq c s) ▸ .wroteByte
  | inp c =>
    rcases execInp_cases c s with ⟨_, he, e⟩ | ⟨he, e⟩
    · exact inj e ▸ .tookEvent he
    · exact inj e ▸ .waited he
  | loadprog b c =>
    rcases execLoadprog_cases b c s with ⟨h0, e⟩ | ⟨_, _, e⟩ | ⟨_, h0, hg, e⟩
    · exact inj e ▸ .jumped h0
    · exact inj e ▸ .raised (by simp) (by simp)
    · exact inj e ▸ .replaced h0 hg

/-! ### The step -/

theorem step_of_running {s : State} (h : s.status = .running) : step s = cycle s := by
  simp [step, h]

/-- Everything a step that answers a next state can have done: a fetch fault, an invalid opcode, or the handler of
the instruction fetched (R112). -/
theorem step_next_cases {s t : State} (h : step s = .next t) :
    s.status = .running ∧
    ((s.wordAt 0#32 s.pc = none ∧ t = s.raiseAtFetch (.pcOutOfRange ((s.segLength 0#32).getD 0))) ∨
     (∃ w, s.wordAt 0#32 s.pc = some w ∧ 14 ≤ (opField w).toNat ∧
       t = s.advance.raise (.invalidOpcode (opField w))) ∨
     (∃ w i, s.wordAt 0#32 s.pc = some w ∧ decode w = .ok i ∧ exec i s.advance = .next t)) := by
  unfold step at h
  split at h
  · next hr =>
    refine ⟨hr, ?_⟩
    unfold cycle at h
    rcases s.fetch_cases with ⟨w, hw, hf⟩ | ⟨hw, hf⟩
    · rw [hf] at h
      rcases decode_cases w with ⟨-, i, hi, -⟩ | ⟨ho, hi⟩
      · exact .inr (.inr ⟨w, i, hw, hi, by simpa [hi] using h⟩)
      · exact .inr (.inl ⟨w, hw, ho, by simpa [hi, eq_comm] using h⟩)
    · rw [hf] at h
      exact .inl ⟨hw, by simpa [eq_comm] using h⟩
  · cases h
  · cases h

/-- The step of an instruction that was fetched and decoded. -/
theorem step_of_decode {s : State} {w : Word} {i : Instr} (hr : s.status = .running)
    (hw : s.wordAt 0#32 s.pc = some w) (hi : decode w = .ok i) : step s = exec i s.advance := by
  rw [step_of_running hr, cycle, (s.fetch_eq_ok_iff w).2 hw]
  simp only [hi]

/-- The step of an illegal word (R67). -/
theorem step_of_invalid {s : State} {w : Word} (hr : s.status = .running)
    (hw : s.wordAt 0#32 s.pc = some w) (ho : 14 ≤ (opField w).toNat) :
    step s = .next (s.advance.raise (.invalidOpcode (opField w))) := by
  rcases decode_cases w with ⟨h, -⟩ | ⟨-, hi⟩
  · omega
  · rw [step_of_running hr, cycle, (s.fetch_eq_ok_iff w).2 hw]
    simp only [hi]

/-- The step of a fetch that finds no word (R40). -/
theorem step_of_fetch_fault {s : State} (hr : s.status = .running) (hw : s.wordAt 0#32 s.pc = none) :
    step s = .next (s.raiseAtFetch (.pcOutOfRange ((s.segLength 0#32).getD 0))) := by
  rcases s.fetch_cases with ⟨w, hw', -⟩ | ⟨-, hf⟩
  · simp [hw] at hw'
  · rw [step_of_running hr, cycle, hf]

/-! ### The loader -/

theorem State.boot_empty : State.boot [] = State.reset := rfl

theorem State.boot_segment (img : List Word) (id : Word) :
    (State.boot img).segment id = if id = 0#32 then some (Segment.ofWords img) else none := by
  rw [State.boot, State.segment_setSegment]
  split_ifs with h
  · rfl
  · have : ¬ 0 = id.toNat := fun h0 => h (BitVec.eq_of_toNat_eq h0.symm)
    simp [State.segment, State.reset, tableGet, this]

/-- The image stands in segment 0 word for word (R136, R137). -/
theorem State.boot_wordAt (img : List Word) (off : Word) : (State.boot img).wordAt 0#32 off = img[off.toNat]? := by
  simp [State.wordAt, State.boot_segment, Segment.ofWords_read]

theorem State.wf_boot {img : List Word} (h : img.length ≤ Config.maxSegmentWords) :
    Memory.wf (State.boot img).segs :=
  State.wf_setSegment State.wf_reset _ (Segment.ofWords_wf h)

/-- A placed word is the one the next step fetches. -/
theorem State.placeWord_fetch (s : State) (w : Word) : (s.placeWord w).fetch = .ok w := by
  rw [State.fetch_eq_ok_iff]
  show (s.setSegment 0#32 _).wordAt 0#32 s.pc = some w
  rw [State.wordAt_setSegment, if_pos rfl, Segment.write_read]
  have : s.pc.toNat < max ((s.segment 0#32).getD (Segment.zeros 0)).length (s.pc.toNat + 1) := by omega
  simp [this]

theorem State.placeWord_status (s : State) (w : Word) : (s.placeWord w).status = .running := rfl

/-- `withFetchWord` does what its name says: the next step runs exactly that instruction. -/
theorem step_withFetchWord (s : State) {w : Word} {i : Instr} (hi : decode w = .ok i) :
    step (s.withFetchWord 32 w.toNat) = exec i (s.withFetchWord 32 w.toNat).advance := by
  have hw : BitVec.ofNat 32 (w.toNat % 2 ^ 32) = w := by
    apply BitVec.eq_of_toNat_eq
    have := w.isLt
    rw [BitVec.toNat_ofNat]
    omega
  unfold State.withFetchWord
  rw [hw]
  exact step_of_decode (State.placeWord_status s w) (((s.placeWord w).fetch_eq_ok_iff w).1 (s.placeWord_fetch w)) hi

end Sys2Proof.Machine
end

