-- ==== Sys2Proof/Machine/Assembler.lean ====
section
/-! DEFINITION. Machine/Assembler.lean: the assembler syntax of the spec (spec/30_encoding.md R76, R77, decision
D17), as a function that writes an instruction. It has no effect on the machine. -/

namespace Sys2Proof

/-- The mnemonics of R64. -/
def Instr.mnemonic : Instr → String
  | .cmov _ _ _ => "cmov"
  | .load _ _ _ => "load"
  | .store _ _ _ => "store"
  | .add _ _ _ => "add"
  | .mul _ _ _ => "mul"
  | .div _ _ _ => "div"
  | .nand _ _ _ => "nand"
  | .halt => "halt"
  | .map _ _ => "map"
  | .unmap _ => "unmap"
  | .out _ => "out"
  | .inp _ => "in"
  | .loadprog _ _ => "loadprog"
  | .loadval _ _ => "loadval"

/-- `r0` to `r7` (R76). -/
def regName : Reg → String
  | 0 => "r0" | 1 => "r1" | 2 => "r2" | 3 => "r3" | 4 => "r4" | 5 => "r5" | 6 => "r6" | 7 => "r7"

/-- The operands in field order (R77). -/
def Instr.operands : Instr → List String
  | .cmov a b c => [regName a, regName b, regName c]
  | .load a b c => [regName a, regName b, regName c]
  | .store a b c => [regName a, regName b, regName c]
  | .add a b c => [regName a, regName b, regName c]
  | .mul a b c => [regName a, regName b, regName c]
  | .div a b c => [regName a, regName b, regName c]
  | .nand a b c => [regName a, regName b, regName c]
  | .halt => []
  | .map b c => [regName b, regName c]
  | .unmap c => [regName c]
  | .out c => [regName c]
  | .inp c => [regName c]
  | .loadprog b c => [regName b, regName c]
  | .loadval a imm => [regName a, toString imm.toNat]

/-- One line of assembler: the mnemonic, then the operands, separated by commas (R76). -/
def Instr.asm (i : Instr) : String :=
  match i.operands with
  | [] => i.mnemonic
  | ops => i.mnemonic ++ " " ++ String.intercalate ", " ops

end Sys2Proof
end

