-- ==== Sys2Proof/Tests/Slice0.lean ====
section
/-! SUPPORT. Tests/Slice0.lean: the model's own tests. Every expected value comes from the spec, the words from its
encodings (spec/30_encoding.md R58, R59, R69) and the end states from its rules and spec/95_test_vectors.md; the
comment of a test names the vector. The witnesses at the end show that the hypotheses of the statements are met. -/

namespace Sys2Proof.Tests

open Sys2Proof.Machine

/-- The next state of an outcome, or the given one. -/
def orElse (d : State) : Host.Outcome State Fault Refusal → State
  | .next t => t
  | _ => d

/-- One step from reset with the given image, some state changed first. -/
def oneStep (img : List Word) (f : State → State) : State := orElse State.reset (step (f (State.boot img)))

/-- The fault a status records. -/
def faultOf (s : State) : Option FaultCause :=
  match s.status with
  | .faulted r => some r.cause
  | _ => none

/-! ### WellFormed smoke -/

theorem test_wellFormed_refuses_wide_imm : (Instr.loadval 0 0x02000000#32).wellFormed = false := by decide
theorem test_wellFormed_largest_imm : (Instr.loadval 0 0x01FFFFFF#32).wellFormed = true := by decide

/-! ### Decoding, words written out bit by bit: opcode, 19 ignored bits, A, B, C -/

theorem test_decode_cmov : decode (0b0000#4 ++ 0b0000000000000000000#19 ++ 0b001#3 ++ 0b010#3 ++ 0b011#3) =
    .ok (.cmov 1 2 3) := by decide
theorem test_decode_load : decode (0b0001#4 ++ 0b0000000000000000000#19 ++ 0b100#3 ++ 0b101#3 ++ 0b110#3) =
    .ok (.load 4 5 6) := by decide
theorem test_decode_store : decode (0b0010#4 ++ 0b0000000000000000000#19 ++ 0b000#3 ++ 0b011#3 ++ 0b001#3) =
    .ok (.store 0 3 1) := by decide
/-- Ignored bits set (95, 2.1 `30FFFE53`). -/
theorem test_decode_add : decode (0b0011#4 ++ 0b0000111111111111111#19 ++ 0b001#3 ++ 0b010#3 ++ 0b011#3) =
    .ok (.add 1 2 3) := by decide
theorem test_decode_mul : decode (0b0100#4 ++ 0b0000000000000000000#19 ++ 0b001#3 ++ 0b001#3 ++ 0b010#3) =
    .ok (.mul 1 1 2) := by decide
theorem test_decode_div : decode (0b0101#4 ++ 0b0000000000000000000#19 ++ 0b010#3 ++ 0b001#3 ++ 0b000#3) =
    .ok (.div 2 1 0) := by decide
theorem test_decode_nand : decode (0b0110#4 ++ 0b0000000000000000000#19 ++ 0b111#3 ++ 0b000#3 ++ 0b000#3) =
    .ok (.nand 7 0 0) := by decide
/-- `7ABCDEF0` (R66). -/
theorem test_decode_halt : decode (0b0111#4 ++ 0b1010101111001101111#19 ++ 0b011#3 ++ 0b110#3 ++ 0b000#3) =
    .ok .halt := by decide
theorem test_decode_map : decode (0b1000#4 ++ 0b0000000000000000000#19 ++ 0b000#3 ++ 0b010#3 ++ 0b011#3) =
    .ok (.map 2 3) := by decide
theorem test_decode_unmap : decode (0b1001#4 ++ 0b0000000000000000000#19 ++ 0b111#3 ++ 0b111#3 ++ 0b010#3) =
    .ok (.unmap 2) := by decide
theorem test_decode_out : decode (0b1010#4 ++ 0b0000000000000000000#19 ++ 0b000#3 ++ 0b000#3 ++ 0b110#3) =
    .ok (.out 6) := by decide
theorem test_decode_in : decode (0b1011#4 ++ 0b0000000000000000000#19 ++ 0b000#3 ++ 0b000#3 ++ 0b101#3) =
    .ok (.inp 5) := by decide
theorem test_decode_loadprog : decode (0b1100#4 ++ 0b0000000000000000000#19 ++ 0b000#3 ++ 0b010#3 ++ 0b000#3) =
    .ok (.loadprog 2 0) := by decide
/-- LA in bits 27..25, not the three-register A (LV3 `D2000001`). -/
theorem test_decode_loadval : decode (0b1101#4 ++ 0b001#3 ++ 0b0000000000000000000000001#25) =
    .ok (.loadval 1 1#32) := by decide
theorem test_decode_illegal_14 : decode 0xE0000000#32 = .error (.invalidOpcode 14#4) := by decide
theorem test_decode_illegal_15 : decode 0xF1234567#32 = .error (.invalidOpcode 15#4) := by decide

/-- 95, 2.1, row `F1234567`: every field of both forms, from an illegal word. -/
theorem test_fields_illegal : fields 0xF1234567#32 =
    { op := 15#4, a := 5, b := 4, c := 7, la := 0, imm := 0x1234567#32, opValid := false } := by decide
/-- 95, 2.1, row `DFFFFFFF`. -/
theorem test_fields_loadval : fields 0xDFFFFFFF#32 =
    { op := 13#4, a := 7, b := 7, c := 7, la := 7, imm := 0x1FFFFFF#32, opValid := true } := by decide

/-- R69, canonical encodings. -/
theorem test_encode_spec_words :
    encode (.add 1 2 3) = 0x30000053#32 ∧ encode (.loadval 0 72#32) = 0xD0000048#32 ∧
    encode (.out 0) = 0xA0000000#32 ∧ encode .halt = 0x70000000#32 ∧
    encode (.loadval 7 0x1FFFFFF#32) = 0xDFFFFFFF#32 ∧ encode (.map 2 3) = 0x80000013#32 := by decide

theorem test_decodeTableWord : decodeTableWord 32 0xD2000001 = some (.loadval 1 1#32) ∧
    decodeTableWord 32 0xE0000000 = none := by decide

/-- R77. -/
theorem test_asm : (Instr.store 1 2 3).asm = "store r1, r2, r3" ∧ Instr.halt.asm = "halt" := by decide

/-! ### One step of each instruction -/

/-- CM1, CM2. -/
theorem test_cmov_moves : (oneStep [0x00000053#32] fun s =>
    ((s.setReg 1 1#32).setReg 2 2#32).setReg 3 3#32).reg 1 = 2#32 := by decide
/-- CM3: the test reads the old register. -/
theorem test_cmov_old_condition : (oneStep [0x00000051#32] fun s => (s.setReg 1 5#32).setReg 2 9#32).reg 1 = 9#32 := by
  decide

/-- L6: the address uses the old registers. -/
theorem test_load_alias : (oneStep [0x10000049#32] fun s =>
    (s.setSegment 1#32 (Segment.ofWords [0#32, 0xAB#32])).setReg 1 1#32).reg 1 = 0xAB#32 := by decide
/-- L4. -/
theorem test_load_out_of_range : faultOf (oneStep [0x10000081#32, 0#32] fun s => s.setReg 1 9#32) =
    some (.offsetOutOfRange 0#32 9#32 2) := by decide

/-- S1 of 2.2, at the last offset. -/
theorem test_store_last_word : (oneStep [0x20000053#32] fun s =>
    (((s.setSegment 1#32 (Segment.zeros 4)).setReg 1 1#32).setReg 2 3#32).setReg 3 0xDEADBEEF#32).wordAt 1#32 3#32 =
    some 0xDEADBEEF#32 := by decide
/-- S2 of 2.2, one past it. -/
theorem test_store_out_of_range : faultOf (oneStep [0x20000053#32] fun s =>
    ((s.setSegment 1#32 (Segment.zeros 4)).setReg 1 1#32).setReg 2 4#32) =
    some (.offsetOutOfRange 1#32 4#32 4) := by decide

/-- A1. -/
theorem test_add_wraps : (oneStep [0x30000053#32] fun s =>
    (s.setReg 2 0xFFFFFFFF#32).setReg 3 0xFFFFFFFF#32).reg 1 = 0xFFFFFFFE#32 := by decide
/-- M1, M3. -/
theorem test_mul_wraps : (oneStep [0x40000053#32] fun s =>
    (s.setReg 2 0xFFFFFFFF#32).setReg 3 0xFFFFFFFF#32).reg 1 = 1#32 := by decide
theorem test_mul_low_half : (oneStep [0x40000053#32] fun s =>
    (s.setReg 2 3#32).setReg 3 0x55555556#32).reg 1 = 2#32 := by decide
/-- D5: unsigned. -/
theorem test_div_unsigned : (oneStep [0x50000053#32] fun s =>
    (s.setReg 2 0x80000000#32).setReg 3 2#32).reg 1 = 0x40000000#32 := by decide
/-- D9: the record, with `pc` one further (P6). -/
theorem test_div_by_zero : (oneStep [0x50000088#32] id).status =
    .faulted { cause := .divideByZero 0, faultPc := 0#32, word := some 0x50000088#32 } ∧
    (oneStep [0x50000088#32] id).pc = 1#32 := by decide
/-- N3. -/
theorem test_nand : (oneStep [0x60000053#32] fun s =>
    (s.setReg 2 0xF0F0F0F0#32).setReg 3 0xFF00FF00#32).reg 1 = 0x0FFF0FFF#32 := by decide

/-- H2. -/
theorem test_halt : oneStep [0x7ABCDEF0#32] id = ((State.boot [0x7ABCDEF0#32]).setPc 1#32).halt := by decide

/-- MP3: the top of the free stack is reused, zeroed. -/
theorem test_map_reuses_top : (oneStep [0x80000029#32] fun s =>
    { s.setReg 1 2#32 with free := [3#32, 1#32], hw := 4#32 }).free = [1#32] ∧
    (oneStep [0x80000029#32] fun s => { s.setReg 1 2#32 with free := [3#32, 1#32], hw := 4#32 }).wordAt 3#32 1#32 =
      some 0#32 := by decide
/-- MP4. -/
theorem test_map_exhausted : faultOf (oneStep [0x80000029#32] fun s => { s with hw := 0xFFFFFFFF#32 }) =
    some (.segmentIdExhausted 0#32) := by decide

/-- U1. -/
theorem test_unmap : (oneStep [0x90000002#32] fun s =>
    { (s.setSegment 1#32 (Segment.zeros 4)).setReg 2 1#32 with hw := 1#32 }).free = [1#32] ∧
    (oneStep [0x90000002#32] fun s =>
      { (s.setSegment 1#32 (Segment.zeros 4)).setReg 2 1#32 with hw := 1#32 }).mapped 1#32 = false := by decide
/-- U3. -/
theorem test_unmap_zero : faultOf (oneStep [0x90000000#32] id) = some .unmapSegmentZero := by decide

/-- O2, after a byte already written. -/
theorem test_out_low_byte : (oneStep [0xA0000000#32] fun s =>
    { s.setReg 0 0x148#32 with output := [1#8] }).output = [1#8, 0x48#8] := by decide

/-- I2. -/
theorem test_in_byte : (oneStep [0xB0000005#32] fun s => { s with input := [some (.byte 0xFF#8)] }).reg 5 = 0xFF#32 := by decide
/-- I3. -/
theorem test_in_end : (oneStep [0xB0000005#32] fun s => { s with input := [some .endOfInput] }).reg 5 = 0xFFFFFFFF#32 := by
  decide

/-- LP2: segment 0 is replaced; the source stays. -/
theorem test_loadprog_copies : (oneStep [0xC0000010#32] fun s =>
    (s.setSegment 1#32 (Segment.ofWords [7#32, 8#32])).setReg 2 1#32).segs =
    [(0, Segment.ofWords [7#32, 8#32]), (1, Segment.ofWords [7#32, 8#32])] := by decide
/-- LP3: `pc` is the fetch address plus one, not the target. -/
theorem test_loadprog_unmapped : (oneStep [0xC0000008#32] fun s => (s.setReg 1 3#32).setReg 0 9#32).pc = 1#32 := by decide

/-- LV3. -/
theorem test_loadval : (oneStep [0xD2000001#32] id).reg 1 = 1#32 ∧ (oneStep [0xD2000001#32] id).reg 0 = 0#32 := by decide

/-- C1. -/
theorem test_empty_image : oneStep [] id =
    State.reset.takeFault { cause := .pcOutOfRange 0, faultPc := 0#32, word := none } := by decide
/-- C2. -/
theorem test_illegal_word : oneStep [0xE0000000#32] id =
    ((State.boot [0xE0000000#32]).setPc 1#32).takeFault
      { cause := .invalidOpcode 14#4, faultPc := 0#32, word := some 0xE0000000#32 } := by decide

/-- 95, P1: the image's bytes. -/
theorem test_image_bytes : imageOfBytes [0xD0#8, 0x00#8, 0x00#8, 0x48#8, 0xA0#8, 0x00#8, 0x00#8, 0x00#8] =
    some [0xD0000048#32, 0xA0000000#32] ∧ imageOfBytes [0xD0#8] = none := by decide

/-- The placed word is fetched and run, from reset. -/
theorem test_withFetchWord : (orElse State.reset (step (State.reset.withFetchWord 32 0xD0000048))).reg 0 = 72#32 := by decide

/-! ### Witnesses: the hypotheses of each statement are met, each clause at a boundary value -/

/-- A state with segments 0 (three words), 1 (two words) and 3 mapped, 2 free, `hw` 3. -/
def sample (w : Word) : State :=
  { ((State.boot [w, 0x70000000#32, 5#32]).setSegment 1#32 (Segment.ofWords [0#32, 6#32])).setSegment 3#32
      (Segment.zeros 0) with free := [2#32], hw := 3#32 }

theorem sample_segment (w id : Word) : (sample w).segment id =
    if id = 3#32 then some (Segment.zeros 0) else if id = 1#32 then some (Segment.ofWords [0#32, 6#32])
    else if id = 0#32 then some (Segment.ofWords [w, 0x70000000#32, 5#32]) else none := by
  show ((State.setSegment _ _ _).setSegment _ _).segment id = _
  rw [State.segment_setSegment, State.segment_setSegment, State.boot_segment]

theorem sample_idInvariant (w : Word) : IdInvariant (sample w) := by
  have hf : (sample w).free = [2#32] := rfl
  have hh : (sample w).hw = 3#32 := rfl
  refine ⟨?_, fun id hid => ?_, fun id hid => ?_, by rw [hf]; simp⟩
  · simp [State.mapped, sample_segment]
  · rw [hh] at hid
    have : id = 0#32 ∨ id = 1#32 ∨ id = 2#32 ∨ id = 3#32 := by bv_omega
    rcases this with rfl | rfl | rfl | rfl <;> simp [State.mapped, sample_segment, hf]
  · rw [hh] at hid
    have : id ≠ 0#32 ∧ id ≠ 1#32 ∧ id ≠ 2#32 ∧ id ≠ 3#32 := by
      refine ⟨?_, ?_, ?_, ?_⟩ <;> rintro rfl <;> exact absurd hid (by decide)
    simp [State.mapped, sample_segment, hf, this]

theorem test_witness_FieldsRoundTripOnCanonicalWords : (12#4).toNat ≤ 12 ∧ (fields 0xDFFFFFFF#32).opValid = true ∧
    14 ≤ (0xE0000000#32).toNat / 2 ^ 28 ∧ Instr.halt.wellFormed = true := by decide
theorem test_witness_EncodedInstructionsDecodeToThemselves :
    (Instr.loadval 7 0x01FFFFFF#32).wellFormed = true := by decide
theorem test_witness_WordsAreInstructionsExactlyBelowOpcode14 : (0xDFFFFFFF#32).toNat / 2 ^ 28 ≤ 13 ∧
    14 ≤ (0xE0000000#32).toNat / 2 ^ 28 := by decide
theorem test_witness_IgnoredBitsDoNotChangeDecoding :
    ((0xC0000010#32).toNat / 2 ^ 28 = (0xCFFFFE10#32).toNat / 2 ^ 28 ∧ (0xC0000010#32).toNat / 2 ^ 28 ≤ 12 ∧
      (0xC0000010#32).toNat % 2 ^ 9 = (0xCFFFFE10#32).toNat % 2 ^ 9) ∧
    (0x7FFFFFFF#32).toNat / 2 ^ 28 = 7 ∧
    ((0x800001D3#32).toNat / 2 ^ 28 = 8 ∧ (0x800001D3#32).toNat % 2 ^ 6 = (0x80000013#32).toNat % 2 ^ 6) ∧
    ((0x900001FA#32).toNat / 2 ^ 28 = 9 ∧ (0x900001FA#32).toNat % 2 ^ 3 = (0x90000002#32).toNat % 2 ^ 3) ∧
    (0xA0000000#32).toNat / 2 ^ 28 = 10 ∧ (0xB0000000#32).toNat / 2 ^ 28 = 11 := by decide
theorem test_witness_ResetLoadsTheImage : (0xFFFFFFFF#32 : Word) ≠ 0#32 := by decide
/-- No bytes, one word's bytes, and one byte more. -/
theorem test_witness_ImageBytesAreBigEndian : ([] : List Byte).length % 4 = 0 ∧
    imageOfBytes [1#8, 2#8, 3#8, 4#8] = some [0x01020304#32] ∧
    [1#8, 2#8, 3#8, 4#8, 5#8].length % 4 ≠ 0 := by decide
/-- A Map in a state that meets the id invariant. -/
theorem test_witness_EveryStepKeepsTheIdInvariant : IdInvariant (sample 0x80000008#32) ∧
    step (sample 0x80000008#32) = .next (orElse State.reset (step (sample 0x80000008#32))) :=
  ⟨sample_idInvariant _, rfl⟩
theorem test_witness_EveryStepKeepsTheMemoryForm : MemoryInvariant (sample 0x80000008#32) ∧
    step (sample 0x80000008#32) = .next (orElse State.reset (step (sample 0x80000008#32))) :=
  ⟨by unfold MemoryInvariant; decide, rfl⟩
theorem test_witness_ResetMeetsTheInvariants : [0x70000000#32].length ≤ 2 ^ 32 - 1 := by decide
theorem test_witness_StepRunsTheDecodedInstruction : (sample 0x30000053#32).status = .running ∧
    (sample 0x30000053#32).wordAt 0#32 (sample 0x30000053#32).pc = some 0x30000053#32 ∧
    decode 0x30000053#32 = .ok (.add 1 2 3) := by decide
theorem test_witness_FetchReadsTheWordAtPc : ((sample 0#32).setPc 3#32).segLength 0#32 = some 3 ∧
    3 ≤ ((sample 0#32).setPc 3#32).pc.toNat ∧ ((sample 0#32).setPc 2#32).pc.toNat < 3 ∧
    ((sample 0#32).setPc 3#32).fetch = .error (.pcOutOfRange 3) := by
  refine ⟨by decide, by decide, by decide, rfl⟩
theorem test_witness_FetchPastTheEndFaults : ((sample 0#32).setPc 3#32).status = .running ∧
    ((sample 0#32).setPc 3#32).segLength 0#32 = some 3 ∧ 3 ≤ ((sample 0#32).setPc 3#32).pc.toNat := by decide
theorem test_witness_IllegalOpcodeFaults : (sample 0xE0000000#32).status = .running ∧
    (sample 0xE0000000#32).wordAt 0#32 (sample 0xE0000000#32).pc = some 0xE0000000#32 ∧
    14 ≤ (0xE0000000#32).toNat / 2 ^ 28 := by decide
/-- A fault of a handler, and one of the fetch. -/
theorem test_witness_FaultsArePrecise :
    (step (sample 0x50000088#32) = .next ((sample 0x50000088#32).advance.raise (.divideByZero 0)) ∧
      ((sample 0x50000088#32).advance.raise (.divideByZero 0)).status =
        .faulted { cause := .divideByZero 0, faultPc := 0#32, word := some 0x50000088#32 }) ∧
    step ((sample 0#32).setPc 3#32) = .next (((sample 0#32).setPc 3#32).raiseAtFetch (.pcOutOfRange 3)) :=
  ⟨⟨rfl, rfl⟩, rfl⟩
theorem test_witness_TerminalStatesAreFinal : (sample 0#32).halt.status ≠ .running ∧
    (sample 0#32).halt.status = .halted ∧
    (((sample 0#32).raise .unmapSegmentZero).status ≠ .running) := by decide
theorem test_witness_RunningMachineAlwaysSteps : (sample 0xF0000000#32).status = .running := by decide
theorem test_witness_HaltIsTheOnlySuccess : step (sample 0x70000000#32) = .next (sample 0x70000000#32).advance.halt ∧
    decode 0x70000000#32 = .ok .halt ∧ ((sample 0#32).setPc 3#32).status = .running ∧
    ((sample 0#32).setPc 3#32).segLength 0#32 = some 3 :=
  ⟨rfl, by decide, by decide, by decide⟩
theorem test_witness_OnlyLoadProgramRedirects :
    step (sample 0xB0000005#32) = .next (orElse State.reset (step (sample 0xB0000005#32))) ∧
    (sample 0xB0000005#32).wordAt 0#32 (sample 0xB0000005#32).pc = some 0xB0000005#32 ∧
    decode 0xB0000005#32 = .ok (.inp 5) ∧ (∀ b c, Instr.inp 5 ≠ .loadprog b c) ∧ ¬ Waiting (sample 0xB0000005#32) :=
  ⟨rfl, by decide, by decide, by simp, fun h => absurd h.2.1 (by decide)⟩
/-- Map, Unmap and Load Program, each changing a length. -/
theorem test_witness_SegmentLengthsChangeInThreeWays :
    (step (sample 0x80000008#32) = .next (orElse State.reset (step (sample 0x80000008#32))) ∧
      (orElse State.reset (step (sample 0x80000008#32))).segLength 2#32 ≠ (sample 0x80000008#32).segLength 2#32) ∧
    (orElse State.reset (step ((sample 0x90000002#32).setReg 2 3#32))).segLength 3#32 ≠
      (sample 0x90000002#32).segLength 3#32 ∧
    (orElse State.reset (step ((sample 0xC0000010#32).setReg 2 3#32))).segLength 0#32 ≠
      (sample 0xC0000010#32).segLength 0#32 :=
  ⟨⟨rfl, by decide⟩, by decide, by decide⟩
theorem test_witness_AllocatorMovesOnlyInMapAndUnmap :
    step (sample 0x80000008#32) = .next (orElse State.reset (step (sample 0x80000008#32))) ∧
    ¬ SameAllocator (sample 0x80000008#32) (orElse State.reset (step (sample 0x80000008#32))) :=
  ⟨rfl, fun h => absurd h.1 (by decide)⟩
theorem test_witness_EachStepWritesAtMostOneRegister :
    step (sample 0xD2000001#32) = .next ((sample 0xD2000001#32).advance.setReg 1 1#32) := rfl
/-- Output, an Input that takes an event, and one that waits. -/
theorem test_witness_StreamsMoveOneUnitAtATime :
    step (sample 0xA0000000#32) = .next ((sample 0xA0000000#32).advance.out 0#8) ∧
    step { sample 0xB0000005#32 with input := [none] } = .next (sample 0xB0000005#32) ∧
    step (sample 0xB0000005#32) = .next (((sample 0xB0000005#32).advance.takeInput .endOfInput).setReg 5 0xFFFFFFFF#32) :=
  ⟨rfl, rfl, rfl⟩
/-- Nothing offered ever, and nothing offered yet. -/
theorem test_witness_WaitingInputChangesNothing : Waiting { sample 0xB0000005#32 with inputRest := none } ∧
    Waiting { sample 0xB0000005#32 with input := [none, some (.byte 0x41#8)] } :=
  ⟨⟨rfl, rfl, 0xB0000005#32, 5, rfl, by decide⟩, ⟨rfl, rfl, 0xB0000005#32, 5, rfl, by decide⟩⟩
/-- No attempt in vain, and two. -/
theorem test_witness_WaitEndsWhenTheHostOffersAnEvent : (sample 0xB0000005#32).status = .running ∧
    (sample 0xB0000005#32).wordAt 0#32 (sample 0xB0000005#32).pc = some 0xB0000005#32 ∧
    decode 0xB0000005#32 = .ok (.inp 5) ∧
    [some (InputEvent.byte 0x41#8), none] = List.replicate 0 none ++ some (.byte 0x41#8) :: [none] ∧
    [none, none, some .endOfInput] = List.replicate 2 none ++ some InputEvent.endOfInput :: [] := by decide
/-- A machine that waits with no offer to come; the host's answer is the byte of the rule's example (R96). -/
theorem test_witness_HostAnswerEndsAnyWait : Waiting { sample 0xB0000005#32 with inputRest := none } ∧
    ({ sample 0xB0000005#32 with inputRest := none } : State).input = [] ∧
    step (({ sample 0xB0000005#32 with inputRest := none } : State).answerInput (.byte 0x41#8)) =
      .next (((({ sample 0xB0000005#32 with inputRest := none } : State).answerInput (.byte 0x41#8)).advance.takeInput
        (.byte 0x41#8)).setReg 5 0x41#32) :=
  ⟨⟨rfl, rfl, 0xB0000005#32, 5, rfl, by decide⟩, rfl, rfl⟩

/-- Unmapped, just past the last offset, and at it. -/
theorem test_witness_SegReadReadsOrFaults : (sample 0#32).mapped 2#32 = false ∧
    (sample 0#32).segLength 1#32 = some 2 ∧ 2 ≤ (2#32).toNat ∧ (1#32).toNat < 2 ∧
    ((sample 0#32).setPc 9#32).segs = (sample 0#32).segs := by decide
theorem test_witness_SegWriteWritesOneWord : (sample 0#32).mapped 2#32 = false ∧
    (sample 0#32).segLength 1#32 = some 2 ∧ 2 ≤ (2#32).toNat ∧ (1#32).toNat < 2 := by decide
theorem test_witness_SegReplace0CopiesIndependently : (2#32 : Word) ≠ 0#32 ∧ (sample 0#32).mapped 2#32 = false ∧
    (1#32 : Word) ≠ 0#32 ∧ (sample 0#32).mapped 1#32 = true ∧
    (∃ t u, (sample 0#32).segReplace0 1#32 = .ok t ∧ t.segWrite 1#32 1#32 9#32 = .ok u) ∧
    (∃ t u, (sample 0#32).segReplace0 1#32 = .ok t ∧ t.segWrite 0#32 1#32 9#32 = .ok u) :=
  ⟨by decide, by decide, by decide, by decide, ⟨_, _, rfl, rfl⟩, ⟨_, _, rfl, rfl⟩⟩

/-- One word per opcode under the mask of its rule, ignored bits set. -/
theorem test_witness_opcode_masks :
    0x0FFFFFFF#32 &&& 0xF0000000#32 = 0x00000000#32 ∧ 0x1FFFFFFF#32 &&& 0xF0000000#32 = 0x10000000#32 ∧
    0x2FFFFFFF#32 &&& 0xF0000000#32 = 0x20000000#32 ∧ 0x3FFFFFFF#32 &&& 0xF0000000#32 = 0x30000000#32 ∧
    0x4FFFFFFF#32 &&& 0xF0000000#32 = 0x40000000#32 ∧ 0x5FFFFFFF#32 &&& 0xF0000000#32 = 0x50000000#32 ∧
    0x6FFFFFFF#32 &&& 0xF0000000#32 = 0x60000000#32 ∧ 0x7FFFFFFF#32 &&& 0xF0000000#32 = 0x70000000#32 ∧
    0x8FFFFFFF#32 &&& 0xF0000000#32 = 0x80000000#32 ∧ 0x9FFFFFFF#32 &&& 0xF0000000#32 = 0x90000000#32 ∧
    0xAFFFFFFF#32 &&& 0xF0000000#32 = 0xA0000000#32 ∧ 0xBFFFFFFF#32 &&& 0xF0000000#32 = 0xB0000000#32 ∧
    0xCFFFFFFF#32 &&& 0xF0000000#32 = 0xC0000000#32 ∧ 0xDFFFFFFF#32 &&& 0xF0000000#32 = 0xD0000000#32 := by decide
/-- R81: through `x[2] = 2`, an unmapped id; through `x[1] = 1`, offsets 2 and 1 of two words. -/
theorem test_witness_LoadReadsTheSegmentWord : ((sample 0#32).setReg 2 2#32).mapped (((sample 0#32).setReg 2 2#32).reg 2) = false ∧
    ((sample 0#32).setReg 1 1#32).segLength (((sample 0#32).setReg 1 1#32).reg 1) = some 2 ∧
    2 ≤ (((sample 0#32).setReg 3 2#32).reg 3).toNat ∧ (((sample 0#32).setReg 3 1#32).reg 3).toNat < 2 := by decide
/-- R82: the same ids and offsets. -/
theorem test_witness_StoreWritesTheSegmentWord : ((sample 0#32).setReg 2 2#32).mapped (((sample 0#32).setReg 2 2#32).reg 2) = false ∧
    ((sample 0#32).setReg 1 1#32).segLength (((sample 0#32).setReg 1 1#32).reg 1) = some 2 ∧
    2 ≤ (((sample 0#32).setReg 3 2#32).reg 3).toNat ∧ (((sample 0#32).setReg 3 1#32).reg 3).toNat < 2 := by decide
theorem test_witness_DivideTruncatesOrFaults : (sample 0#32).reg 3 = 0#32 ∧ ((sample 0#32).setReg 3 1#32).reg 3 ≠ 0#32 := by
  decide
/-- R92: exhausted; one short of it; a nonempty free stack at the last id; each draw. -/
theorem test_witness_MapAssignsZeroedSegments :
    ({ sample 0#32 with free := [], hw := 0xFFFFFFFF#32 } : State).free = [] ∧
    ({ sample 0#32 with free := [], hw := 0xFFFFFFFE#32 } : State).hw ≠ 0xFFFFFFFF#32 ∧
    ({ sample 0#32 with hw := 0xFFFFFFFF#32 } : State).free ≠ [] ∧
    ({ sample 0#32 with allocDraws := [true] } : State).allocFails = true ∧ (sample 0#32).allocFails = false := by decide
theorem test_witness_MapAssignsAFreshNonzeroId : IdInvariant (sample 0#32) ∧ (sample 0#32).status = .running ∧
    exec (.map 1 0) (sample 0#32) = .next (orElse State.reset (exec (.map 1 0) (sample 0#32))) ∧
    (orElse State.reset (exec (.map 1 0) (sample 0#32))).status = .running :=
  ⟨sample_idInvariant _, rfl, rfl, rfl⟩
theorem test_witness_UnmapFreesTheSegment : (sample 0#32).reg 2 = 0#32 ∧
    ((sample 0#32).setReg 2 2#32).reg 2 ≠ 0#32 ∧
    ((sample 0#32).setReg 2 2#32).mapped (((sample 0#32).setReg 2 2#32).reg 2) = false ∧
    ((sample 0#32).setReg 2 3#32).mapped (((sample 0#32).setReg 2 3#32).reg 2) = true := by decide
/-- R94: Map, Unmap, Map; and Unmap of 1 and 3, then three Maps. -/
theorem test_witness_IdsAreReusedLastInFirstOut :
    (∃ s1 s2 s3, exec (.map 1 0) (sample 0#32) = .next s1 ∧ s1.status = .running ∧
      exec (.unmap 1) s1 = .next s2 ∧ s2.status = .running ∧
      exec (.map 2 1) s2 = .next s3 ∧ s3.status = .running) ∧
    (∃ s s1 s2 s3 s4 s5, s.free = [] ∧ exec (.unmap 1) s = .next s1 ∧ s1.status = .running ∧
      exec (.unmap 3) s1 = .next s2 ∧ s2.status = .running ∧
      exec (.map 5 0) s2 = .next s3 ∧ s3.status = .running ∧
      exec (.map 6 0) s3 = .next s4 ∧ s4.status = .running ∧
      exec (.map 7 0) s4 = .next s5 ∧ s5.status = .running) := by
  refine ⟨⟨_, _, _, rfl, rfl, rfl, rfl, rfl, rfl⟩,
    ⟨{ ((sample 0#32).setReg 1 1#32).setReg 3 3#32 with free := [] }, _, _, _, _, _, rfl, rfl, rfl, rfl, rfl, rfl, rfl,
      rfl, rfl, rfl, rfl⟩⟩
theorem test_witness_InputTakesOneEvent :
    (∃ rest, ({ sample 0#32 with input := [some (.byte 0xFF#8)] } : State).input = some (.byte 0xFF#8) :: rest) ∧
    ((sample 0#32).input = [] ∧ (sample 0#32).inputRest = some .endOfInput) ∧
    (∃ rest, ({ sample 0#32 with input := [none] } : State).input = none :: rest) ∧
    (({ sample 0#32 with inputRest := none } : State).input = [] ∧
      ({ sample 0#32 with inputRest := none } : State).inputRest = none) :=
  ⟨⟨[], rfl⟩, ⟨rfl, rfl⟩, ⟨[], rfl⟩, ⟨rfl, rfl⟩⟩
theorem test_witness_LoadProgramJumpsAndCopies : (sample 0#32).reg 2 = 0#32 ∧
    ((sample 0#32).setReg 2 2#32).reg 2 ≠ 0#32 ∧
    ((sample 0#32).setReg 2 2#32).mapped (((sample 0#32).setReg 2 2#32).reg 2) = false ∧
    ((sample 0#32).setReg 2 3#32).mapped (((sample 0#32).setReg 2 3#32).reg 2) = true := by decide
theorem test_witness_LoadAfterStoreReadsTheValue :
    ((sample 0#32).setReg 1 1#32).segLength (((sample 0#32).setReg 1 1#32).reg 1) = some 2 ∧
    (((sample 0#32).setReg 1 1#32).reg 1).toNat < 2 := by decide
/-- R146: a Store over its own word, at offset 0. -/
theorem test_witness_StoreIntoTheProgramIsFetchedNext : (sample 0x20000053#32).status = .running ∧
    (sample 0x20000053#32).wordAt 0#32 (sample 0x20000053#32).pc = some 0x20000053#32 ∧
    decode 0x20000053#32 = .ok (.store 1 2 3) ∧ (sample 0x20000053#32).reg 1 = 0#32 ∧
    (sample 0x20000053#32).segLength 0#32 = some 3 ∧ ((sample 0x20000053#32).reg 2).toNat < 3 := by decide

end Sys2Proof.Tests
end

section
/-! The indexer (spec/20_memory.md R38, R39, R44): what `SegRead`, `SegWrite` and `SegReplace0` answer, each answer
under the condition that fixes it; what a completed write or replacement does to every location; and the three
statements about the indexer, assembled from these rules. -/

namespace Sys2Proof.Machine

variable {s t : State} {id off v : Word} {n : Nat}

/-! ### Mapped, length and word of one id -/

theorem State.mapped_eq_false_iff (s : State) (id : Word) : s.mapped id = false ↔ s.segLength id = none := by
  simp [State.mapped, State.segLength]

/-- A word exists only below the length of its segment. -/
theorem State.lt_segLength_of_wordAt (hv : s.wordAt id off = some v) (hn : s.segLength id = some n) :
    off.toNat < n := by
  obtain ⟨g, hg, ho, -⟩ := (s.wordAt_eq_some_iff id off v).1 hv
  obtain rfl : g.length = n := by simpa [State.segLength, hg] using hn
  exact ho

/-- What the indexer looks up is fixed by the segment table. -/
theorem State.segment_congr (h : t.segs = s.segs) (id : Word) : t.segment id = s.segment id := by
  rw [State.segment, h, ← State.segment]

/-! ### `SegRead` -/

theorem State.segRead_of_unmapped (h : s.segLength id = none) :
    s.segRead id off = .error (.segmentNotMapped id off) := by
  rcases s.segRead_cases id off with ⟨-, he⟩ | ⟨n, hn, -, -⟩ | ⟨v, hv, -⟩
  · exact he
  · simp [h] at hn
  · obtain ⟨g, hg, -, -⟩ := (s.wordAt_eq_some_iff id off v).1 hv
    simp [State.segLength, hg] at h

theorem State.segRead_of_length_le (hn : s.segLength id = some n) (ho : n ≤ off.toNat) :
    s.segRead id off = .error (.offsetOutOfRange id off n) := by
  rcases s.segRead_cases id off with ⟨h, -⟩ | ⟨m, hm, -, he⟩ | ⟨v, hv, -⟩
  · simp [hn] at h
  · obtain rfl : n = m := by simpa [hn] using hm
    exact he
  · exact absurd (State.lt_segLength_of_wordAt hv hn) (Nat.not_lt.2 ho)

theorem State.segRead_of_lt_length (hn : s.segLength id = some n) (ho : off.toNat < n) :
    ∃ v, s.wordAt id off = some v ∧ s.segRead id off = .ok v := by
  rcases s.segRead_cases id off with ⟨h, -⟩ | ⟨m, hm, hmo, -⟩ | hread
  · simp [hn] at h
  · obtain rfl : n = m := by simpa [hn] using hm
    exact absurd ho (Nat.not_lt.2 hmo)
  · exact hread

/-- `SegRead` reads no state other than the segment table (R38). -/
theorem State.segRead_congr (h : t.segs = s.segs) (id off : Word) : t.segRead id off = s.segRead id off := by
  rw [State.segRead, State.segment_congr h id, ← State.segRead]

/-! ### `SegWrite` -/

theorem State.segWrite_of_unmapped (h : s.segLength id = none) (off v : Word) :
    s.segWrite id off v = .error (.segmentNotMapped id off) := by
  rcases s.segWrite_cases id off v with ⟨-, he⟩ | ⟨n, hn, -, -⟩ | ⟨g, hg, -, -⟩
  · exact he
  · simp [h] at hn
  · simp [State.segLength, hg] at h

theorem State.segWrite_of_length_le (hn : s.segLength id = some n) (ho : n ≤ off.toNat) (v : Word) :
    s.segWrite id off v = .error (.offsetOutOfRange id off n) := by
  rcases s.segWrite_cases id off v with ⟨h, -⟩ | ⟨m, hm, -, he⟩ | ⟨g, hg, hgo, -⟩
  · simp [hn] at h
  · obtain rfl : n = m := by simpa [hn] using hm
    exact he
  · obtain rfl : g.length = n := by simpa [State.segLength, hg] using hn
    exact absurd hgo (Nat.not_lt.2 ho)

theorem State.segWrite_of_lt_length (hn : s.segLength id = some n) (ho : off.toNat < n) (v : Word) :
    ∃ t, s.segWrite id off v = .ok t := by
  rcases s.segWrite_cases id off v with ⟨h, -⟩ | ⟨m, hm, hmo, -⟩ | ⟨g, -, -, he⟩
  · simp [hn] at h
  · obtain rfl : n = m := by simpa [hn] using hm
    exact absurd ho (Nat.not_lt.2 hmo)
  · exact ⟨_, he⟩

/-- The inversion of a completed `SegWrite`. -/
theorem State.eq_setSegment_of_segWrite (h : s.segWrite id off v = .ok t) :
    ∃ g, s.segment id = some g ∧ off.toNat < g.length ∧ t = s.setSegment id (g.write off.toNat v) := by
  rcases s.segWrite_cases id off v with ⟨-, he⟩ | ⟨n, -, -, he⟩ | ⟨g, hg, ho, he⟩
  · simp [he] at h
  · simp [he] at h
  · exact ⟨g, hg, ho, by simpa [he, eq_comm] using h⟩

/-- A completed `SegWrite` puts the value at its own location and keeps every other word. -/
theorem State.wordAt_of_segWrite (h : s.segWrite id off v = .ok t) (j k : Word) :
    t.wordAt j k = if (j, k) = (id, off) then some v else s.wordAt j k := by
  obtain ⟨g, hg, ho, rfl⟩ := State.eq_setSegment_of_segWrite h
  exact s.wordAt_write hg ho v j k

/-- A completed `SegWrite` changes no segment but its own. -/
theorem State.wordAt_of_segWrite_ne (h : s.segWrite id off v = .ok t) {j : Word} (hj : j ≠ id) (k : Word) :
    t.wordAt j k = s.wordAt j k := by
  simp [State.wordAt_of_segWrite h, hj]

theorem State.segLength_of_segWrite (h : s.segWrite id off v = .ok t) (j : Word) :
    t.segLength j = s.segLength j := by
  obtain ⟨g, hg, -, rfl⟩ := State.eq_setSegment_of_segWrite h
  exact s.segLength_write hg off.toNat v j

theorem State.sameMemoryButWord_of_segWrite (h : s.segWrite id off v = .ok t) : SameMemoryButWord id off s t :=
  fun j => ⟨State.segLength_of_segWrite h j, fun k hjk => by rw [State.wordAt_of_segWrite h, if_neg hjk]⟩

/-! ### `SegReplace0` -/

theorem State.segReplace0_of_unmapped (h : s.segLength id = none) :
    s.segReplace0 id = .error (.loadProgramNotMapped id) := by
  rcases s.segReplace0_cases id with ⟨-, he⟩ | ⟨g, hg, -⟩
  · exact he
  · simp [State.segLength, hg] at h

theorem State.segReplace0_of_segment {g : Segment} (hg : s.segment id = some g) :
    s.segReplace0 id = .ok (s.setSegment 0#32 g) := by
  rcases s.segReplace0_cases id with ⟨h, -⟩ | ⟨g', hg', he⟩
  · simp [State.segLength, hg] at h
  · obtain rfl : g = g' := by simpa [hg] using hg'
    exact he

/-- Putting a segment at `id` changes no other segment. -/
theorem State.sameMemoryBut_setSegment (s : State) (id : Word) (g : Segment) :
    SameMemoryBut id s (s.setSegment id g) := fun j hj =>
  ⟨by rw [State.segLength_setSegment, if_neg hj], fun k => by rw [State.wordAt_setSegment, if_neg hj]⟩

/-- A segment put at `j` reads there as it reads at the id it was taken from. -/
theorem State.wordAt_setSegment_copy {g : Segment} (hg : s.segment id = some g) (j k : Word) :
    (s.setSegment j g).wordAt j k = s.wordAt id k := by
  rw [State.wordAt_setSegment, if_pos rfl, State.wordAt, hg, Option.bind_some]

theorem State.segLength_setSegment_copy {g : Segment} (hg : s.segment id = some g) (j : Word) :
    (s.setSegment j g).segLength j = s.segLength id := by
  rw [State.segLength_setSegment, if_pos rfl, State.segLength, hg, Option.map_some]

end Sys2Proof.Machine

namespace Sys2Proof.Proofs

open Sys2Proof.Machine

/-- Settles O28: the three answers of `SegWrite`, and the rules of a completed one. -/
theorem segWriteWritesOneWord : Obligations.SegWriteWritesOneWord := by
  intro s id off v
  refine ⟨fun hm => ?unmapped, fun n hn => ⟨fun ho => ?outOfRange, fun ho => ?inRange⟩⟩
  case unmapped => exact State.segWrite_of_unmapped ((s.mapped_eq_false_iff id).1 hm) off v
  case outOfRange => exact State.segWrite_of_length_le hn ho v
  case inRange =>
    obtain ⟨t, ht⟩ := State.segWrite_of_lt_length hn ho v
    have hword : t.wordAt id off = some v := by rw [State.wordAt_of_segWrite ht, if_pos rfl]
    have hlen : t.segLength id = some n := (State.segLength_of_segWrite ht id).trans hn
    exact ⟨t, ht, hword, hlen, State.sameMemoryButWord_of_segWrite ht⟩

/-- Settles O29: segment 0 becomes the source's data, and a later write reaches the segment of its own id alone. -/
theorem segReplace0CopiesIndependently : Obligations.SegReplace0CopiesIndependently := by
  intro s id hid
  refine ⟨fun hm => ?unmapped, fun hm => ?mapped⟩
  case unmapped => exact State.segReplace0_of_unmapped ((s.mapped_eq_false_iff id).1 hm)
  case mapped =>
    obtain ⟨g, hg⟩ := (s.mapped_iff id).1 hm
    exact ⟨s.setSegment 0#32 g, State.segReplace0_of_segment hg, State.segLength_setSegment_copy hg 0#32,
      State.wordAt_setSegment_copy hg 0#32, s.sameMemoryBut_setSegment 0#32 g,
      fun _ _ _ k hu => State.wordAt_of_segWrite_ne hu hid.symm k,
      fun _ _ _ k hu => State.wordAt_of_segWrite_ne hu hid k⟩

/-- Settles O27: the three answers of `SegRead`, and its dependence on the segment table alone. -/
theorem segReadReadsOrFaults : Obligations.SegReadReadsOrFaults := by
  intro s id off
  refine ⟨fun hm => ?unmapped, fun n hn => ⟨fun ho => ?outOfRange, fun ho => ?inRange⟩, fun t ht => ?tableAlone⟩
  case unmapped => exact State.segRead_of_unmapped ((s.mapped_eq_false_iff id).1 hm)
  case outOfRange => exact State.segRead_of_length_le hn ho
  case inRange => exact State.segRead_of_lt_length hn ho
  case tableAlone => exact State.segRead_congr ht id off

end Sys2Proof.Proofs
end

section
/-! The round trip of fields and words (spec/30_encoding.md R70): the word each form gives back from the fields
decoded from a word, the opcodes that encodings carry, and the four laws assembled from them. -/

namespace Sys2Proof

/-! ### Words from their own fields -/

/-- The three-register form drops bits 27..9 of a word and keeps every other bit. -/
theorem enc3_fields_toNat (w : Word) :
    (enc3 (opField w) (regField w 6) (regField w 3) (regField w 0)).toNat =
      w.toNat / 2 ^ 28 * 2 ^ 28 + w.toNat % 2 ^ 9 := by
  rw [enc3_toNat, opField_toNat, regField_val, regField_val, regField_val]
  omega

theorem enc3_fields_eq_iff (w : Word) :
    enc3 (opField w) (regField w 6) (regField w 3) (regField w 0) = w ↔ w.toNat / 2 ^ 9 % 2 ^ 19 = 0 := by
  rw [← BitVec.toNat_inj, enc3_fields_toNat]
  omega

theorem opField_eq_thirteen_iff (w : Word) : opField w = 13#4 ↔ w.toNat / 2 ^ 28 = 13 := by
  rw [← BitVec.toNat_inj, opField_toNat, BitVec.toNat_ofNat]

/-- The Load-Value form has no ignored bit: a word with its opcode comes back whole. -/
theorem encLV_fields_eq {w : Word} (hop : w.toNat / 2 ^ 28 = 13) :
    encLV (regField w 25) ((immField w).setWidth 25) = w := by
  apply BitVec.eq_of_toNat_eq
  rw [encLV_toNat, regField_val, BitVec.toNat_setWidth, immField_toNat]
  omega

theorem reencode_fields_of_loadValue {w : Word} (hop : w.toNat / 2 ^ 28 = 13) : reencode (fields w) = w :=
  (if_pos ((opField_eq_thirteen_iff w).2 hop)).trans (encLV_fields_eq hop)

theorem reencode_fields_of_threeRegister {w : Word} (hop : w.toNat / 2 ^ 28 ≠ 13) :
    reencode (fields w) = enc3 (opField w) (regField w 6) (regField w 3) (regField w 0) :=
  if_neg fun h => hop ((opField_eq_thirteen_iff w).1 h)

/-- Re-encoding gives a word back exactly when it is canonical. It holds of the opcodes 14 and 15 too, which
`reencode` takes in the three-register form. -/
theorem reencode_fields_eq_iff (w : Word) :
    reencode (fields w) = w ↔ w.toNat / 2 ^ 28 = 13 ∨ w.toNat / 2 ^ 9 % 2 ^ 19 = 0 := by
  by_cases hop : w.toNat / 2 ^ 28 = 13
  · exact iff_of_true (reencode_fields_of_loadValue hop) (.inl hop)
  · rw [reencode_fields_of_threeRegister hop, enc3_fields_eq_iff, or_iff_right hop]

/-! ### Fields from their own encoding -/

theorem immField_encLV_toNat (a : Reg) (imm : BitVec 25) : (immField (encLV a imm)).toNat = imm.toNat := by
  rw [immField_encLV, BitVec.toNat_setWidth_of_le (by decide)]

/-! ### The opcodes of encoded words -/

theorem opField_encode (i : Instr) : opField (encode i) = i.opcode := by
  cases i with
  | cmov a b c => exact Laws.EncodedOpcode.cmov a b c
  | load a b c => exact Laws.EncodedOpcode.load a b c
  | store a b c => exact Laws.EncodedOpcode.store a b c
  | add a b c => exact Laws.EncodedOpcode.add a b c
  | mul a b c => exact Laws.EncodedOpcode.mul a b c
  | div a b c => exact Laws.EncodedOpcode.div a b c
  | nand a b c => exact Laws.EncodedOpcode.nand a b c
  | halt => exact Laws.EncodedOpcode.halt
  | map b c => exact Laws.EncodedOpcode.map b c
  | unmap c => exact Laws.EncodedOpcode.unmap c
  | out c => exact Laws.EncodedOpcode.out c
  | inp c => exact Laws.EncodedOpcode.inp c
  | loadprog b c => exact Laws.EncodedOpcode.loadprog b c
  | loadval a imm => exact Laws.EncodedOpcode.loadval a imm

theorem Instr.opcode_toNat_lt (i : Instr) : i.opcode.toNat < 14 := by
  cases i <;> simp [Instr.opcode]

theorem encode_toNat_div_lt (i : Instr) : (encode i).toNat / 2 ^ 28 < 14 := by
  rw [← opField_toNat, opField_encode]
  exact i.opcode_toNat_lt

end Sys2Proof

namespace Sys2Proof.Proofs

/-- Settles O2: the laws of R70, one by one. -/
theorem fieldsRoundTripOnCanonicalWords : Obligations.FieldsRoundTripOnCanonicalWords := by
  refine ⟨fun op a b c _ => ?threeRegister, fun a imm => ?loadValue, fun w _ => ?reencoded,
    fun w hop i _ he => ?illegal⟩
  case threeRegister =>
    exact ⟨opField_enc3 op a b c, regField_enc3_a op a b c, regField_enc3_b op a b c, regField_enc3_c op a b c⟩
  case loadValue => exact ⟨opField_encLV a imm, regField_encLV a imm, immField_encLV_toNat a imm⟩
  case reencoded => exact reencode_fields_eq_iff w
  case illegal =>
    have hlt : w.toNat / 2 ^ 28 < 14 := he ▸ encode_toNat_div_lt i
    exact absurd hop (Nat.not_le.2 hlt)

end Sys2Proof.Proofs
end

section
/-! Conditional Move, Segmented Load and Segmented Store (spec/40_move_load_store.md R80 to R82): which instruction
the bits 31..28 of a word select, what a register write, a segment write and a fault leave unchanged, and the three
statements about the instructions, assembled from these rules and the answers of the indexer. -/

namespace Sys2Proof

/-! ### Words under a mask on bits 31..28 -/

/-- The mask of the encodings' rules keeps the opcode field whole. -/
theorem opField_of_mask_eq {w m : Word} (h : w &&& 0xF0000000#32 = m) : opField w = opField m := by
  have hmask : (0xF0000000#32).extractLsb' 28 4 = BitVec.allOnes 4 := by decide
  rw [← h, opField, opField, BitVec.extractLsb'_and, hmask, BitVec.and_allOnes]

theorem select_of_op_eq_zero {d : Fields} (h : d.op = 0#4) : select d = .ok (.cmov d.a d.b d.c) := by
  simp [select, h]

theorem select_of_op_eq_one {d : Fields} (h : d.op = 1#4) : select d = .ok (.load d.a d.b d.c) := by
  simp [select, h]

theorem select_of_op_eq_two {d : Fields} (h : d.op = 2#4) : select d = .ok (.store d.a d.b d.c) := by
  simp [select, h]

end Sys2Proof

namespace Sys2Proof.Machine

variable {s t : State} {id off v : Word}

/-! ### What each way to end a handler leaves unchanged -/

/-- A handler that does nothing changes nothing beyond the registers. -/
theorem SameBeyondRegs.refl (s : State) : SameBeyondRegs s s :=
  ⟨fun _ => ⟨rfl, fun _ => rfl⟩, ⟨rfl, rfl⟩, rfl, ⟨rfl, rfl, rfl⟩, rfl, rfl, rfl⟩

/-- The frame of a register write. -/
theorem State.setReg_frame (s : State) (r : Reg) (v : Word) :
    SameRegsBut r s (s.setReg r v) ∧ (s.setReg r v).pc = s.pc ∧ SameBeyondRegs s (s.setReg r v) :=
  ⟨fun _ hq => s.reg_setReg_ne v hq, rfl,
    fun _ => ⟨rfl, fun _ => rfl⟩, ⟨rfl, rfl⟩, rfl, ⟨rfl, rfl, rfl⟩, rfl, rfl, rfl⟩

/-- The frame of a segment put in the table, beyond the memory. -/
theorem State.setSegment_frame (s : State) (id : Word) (g : Segment) :
    SameRegs s (s.setSegment id g) ∧ (s.setSegment id g).pc = s.pc ∧ SameAllocator s (s.setSegment id g) ∧
      (s.setSegment id g).status = s.status ∧ SameHost s (s.setSegment id g) :=
  ⟨fun _ => rfl, rfl, ⟨rfl, rfl⟩, rfl, ⟨rfl, rfl, rfl⟩, rfl, rfl, rfl⟩

/-- The frame of a completed `SegWrite`, beyond the memory (R39). -/
theorem State.frame_of_segWrite (h : s.segWrite id off v = .ok t) :
    SameRegs s t ∧ t.pc = s.pc ∧ SameAllocator s t ∧ t.status = s.status ∧ SameHost s t := by
  obtain ⟨g, -, -, rfl⟩ := State.eq_setSegment_of_segWrite h
  exact s.setSegment_frame id _

theorem State.sameButStatus_raise (s : State) (c : FaultCause) : SameButStatus s (s.raise c) :=
  ⟨fun _ => rfl, rfl, fun _ => ⟨rfl, fun _ => rfl⟩, ⟨rfl, rfl⟩, ⟨rfl, rfl, rfl⟩, rfl, rfl, rfl⟩

/-- A handler that commits an error takes that fault, with nothing written (R111, R119). -/
theorem State.takesFault_commit_error (s : State) (c : FaultCause) : TakesFault c s (s.commit (.error c)) :=
  ⟨s.raise c, _, s.commit_error c, s.raise_status c, rfl, s.sameButStatus_raise c⟩

/-! ### The handlers by their indexer's answer -/

theorem execLoad_of_segRead_error {a b c : Reg} {e : FaultCause} (h : s.segRead (s.reg b) (s.reg c) = .error e) :
    TakesFault e s (exec (.load a b c) s) := by
  rw [exec, execLoad, h]
  exact s.takesFault_commit_error e

theorem execLoad_of_segRead_ok {a b c : Reg} (h : s.segRead (s.reg b) (s.reg c) = .ok v) :
    exec (.load a b c) s = .next (s.setReg a v) := by
  rw [exec, execLoad, h]
  rfl

theorem execStore_of_segWrite_error {a b c : Reg} {e : FaultCause}
    (h : s.segWrite (s.reg a) (s.reg b) (s.reg c) = .error e) : TakesFault e s (exec (.store a b c) s) := by
  rw [exec, execStore, h]
  exact s.takesFault_commit_error e

theorem execStore_of_segWrite_ok {a b c : Reg} (h : s.segWrite (s.reg a) (s.reg b) (s.reg c) = .ok t) :
    exec (.store a b c) s = .next t := by
  rw [exec, execStore, h, State.commit_ok]

end Sys2Proof.Machine

namespace Sys2Proof.Proofs

open Sys2Proof.Machine

/-- Settles O31: each answer of `SegRead` at `(x[B], x[C])`, carried through the handler. -/
theorem loadReadsTheSegmentWord : Obligations.LoadReadsTheSegmentWord := by
  refine ⟨fun w hw => select_of_op_eq_one (opField_of_mask_eq hw), fun a b c s =>
    ⟨fun hm => ?unmapped, fun n hn => ⟨fun ho => ?outOfRange, fun ho => ?inRange⟩⟩⟩
  case unmapped =>
    exact execLoad_of_segRead_error (State.segRead_of_unmapped ((s.mapped_eq_false_iff _).1 hm))
  case outOfRange => exact execLoad_of_segRead_error (State.segRead_of_length_le hn ho)
  case inRange =>
    obtain ⟨v, hword, hread⟩ := State.segRead_of_lt_length hn ho
    exact ⟨s.setReg a v, v, execLoad_of_segRead_ok hread, hword, s.reg_setReg_self a v, s.setReg_frame a v⟩

/-- Settles O32: each answer of `SegWrite` at `(x[A], x[B])`, carried through the handler. -/
theorem storeWritesTheSegmentWord : Obligations.StoreWritesTheSegmentWord := by
  refine ⟨fun w hw => select_of_op_eq_two (opField_of_mask_eq hw), fun a b c s =>
    ⟨fun hm => ?unmapped, fun n hn => ⟨fun ho => ?outOfRange, fun ho => ?inRange⟩⟩⟩
  case unmapped =>
    exact execStore_of_segWrite_error (State.segWrite_of_unmapped ((s.mapped_eq_false_iff _).1 hm) _ _)
  case outOfRange => exact execStore_of_segWrite_error (State.segWrite_of_length_le hn ho _)
  case inRange =>
    obtain ⟨t, hwrite⟩ := State.segWrite_of_lt_length hn ho (s.reg c)
    have hword : t.wordAt (s.reg a) (s.reg b) = some (s.reg c) := by
      rw [State.wordAt_of_segWrite hwrite, if_pos rfl]
    exact ⟨t, execStore_of_segWrite_ok hwrite, hword, State.sameMemoryButWord_of_segWrite hwrite,
      State.frame_of_segWrite hwrite⟩

/-- Settles O30: the two ways a Conditional Move ends, by its condition. -/
theorem conditionalMoveMovesWhenNonzero : Obligations.ConditionalMoveMovesWhenNonzero := by
  refine ⟨fun w hw => select_of_op_eq_zero (opField_of_mask_eq hw), fun a b c s => ?_⟩
  rcases execCmov_cases a b c s with ⟨hc, hexec⟩ | ⟨hc, hexec⟩
  case inl =>
    have hmoved : (s.setReg a (s.reg b)).reg a = if s.reg c ≠ 0#32 then s.reg b else s.reg a := by
      rw [if_pos hc, s.reg_setReg_self]
    exact ⟨s.setReg a (s.reg b), hexec, hmoved, s.setReg_frame a (s.reg b)⟩
  case inr =>
    have hkept : s.reg a = if s.reg c ≠ 0#32 then s.reg b else s.reg a := (if_neg (not_not.2 hc)).symm
    exact ⟨s, hexec, hkept, fun _ _ => rfl, rfl, SameBeyondRegs.refl s⟩

end Sys2Proof.Proofs
end

section
/-! Add, Multiply, Divide and Bitwise NAND (spec/41_arithmetic_logic.md R86 to R89): the arithmetic of their results,
and the four statements, each assembled from its encoding, the handler's equation and the frame of a register write. -/

namespace Sys2Proof

/-- A word under the mask of an encoding's rule decodes as its fields with the rule's opcode in place of their own. -/
theorem decode_of_mask_eq {w m : Word} (h : w &&& 0xF0000000#32 = m) :
    decode w = select { fields w with op := opField m } := by
  rw [decode_eq_select, ← opField_of_mask_eq h]
  rfl

end Sys2Proof

namespace Sys2Proof.Machine

/-! ### The values the handlers write -/

@[simp] theorem wrap_toNat (n : Nat) : (wrap n).toNat = n % 2 ^ 32 := BitVec.toNat_ofNat n 32

/-- A quotient of words is a word, so R85's truncated quotient is not reduced modulo `2^32`. -/
@[simp] theorem quotient_toNat (n d : Word) : (quotient n d).toNat = n.toNat / d.toNat := by
  have hfits : n.toNat / d.toNat < 2 ^ 32 := lt_of_le_of_lt (Nat.div_le_self _ _) n.isLt
  rw [quotient, BitVec.toNat_ofNat, Nat.mod_eq_of_lt hfits]

/-- The dividend is the quotient times the divisor, and the remainder (R85). -/
theorem quotient_mul_add_mod (n d : Word) : n.toNat = (quotient n d).toNat * d.toNat + n.toNat % d.toNat := by
  rw [quotient_toNat, Nat.div_add_mod']

theorem getLsbD_not_and (x y : Word) {k : Nat} (hk : k < 32) :
    (~~~ (x &&& y)).getLsbD k = !(x.getLsbD k && y.getLsbD k) := by
  simp [hk]

end Sys2Proof.Machine

namespace Sys2Proof.Proofs

open Sys2Proof.Machine

/-- Settles O35: a zero divisor takes the fault, any other leaves the quotient and the remainder below it. -/
theorem divideTruncatesOrFaults : Obligations.DivideTruncatesOrFaults := by
  refine ⟨fun w hw => decode_of_mask_eq hw, fun a b c s => ⟨fun hz => ?zero, fun hnz => ?nonzero⟩⟩
  case zero =>
    have hexec := ((execDiv_cases a b c s).resolve_right fun hother => hother.1 hz).2
    rw [hexec, ← s.commit_error]
    exact s.takesFault_commit_error _
  case nonzero =>
    have hexec := ((execDiv_cases a b c s).resolve_left fun hother => hnz hother.1).2
    have hpos : 0 < (s.reg c).toNat := Nat.pos_of_ne_zero fun h0 => hnz (BitVec.eq_of_toNat_eq h0)
    refine ⟨_, (s.reg b).toNat % (s.reg c).toNat, hexec, ?_, Nat.mod_lt _ hpos, s.setReg_frame a _⟩
    rw [s.reg_setReg_self]
    exact quotient_mul_add_mod _ _

/-- Settles O33: the handler writes the wrapped sum and nothing else. -/
theorem addIsTheSumModulo : Obligations.AddIsTheSumModulo := by
  refine ⟨fun w hw => decode_of_mask_eq hw, fun a b c s =>
    ⟨_, execAdd_eq a b c s, ?_, s.setReg_frame a _⟩⟩
  rw [s.reg_setReg_self, wrap_toNat]

/-- Settles O34: the handler writes the wrapped product and nothing else. -/
theorem multiplyIsTheProductModulo : Obligations.MultiplyIsTheProductModulo := by
  refine ⟨fun w hw => decode_of_mask_eq hw, fun a b c s =>
    ⟨_, execMul_eq a b c s, ?_, s.setReg_frame a _⟩⟩
  rw [s.reg_setReg_self, wrap_toNat]

/-- Settles O36: the handler writes the complement of the conjunction, read bit by bit, and nothing else. -/
theorem nandIsBitwise : Obligations.NandIsBitwise := by
  refine ⟨fun w hw => decode_of_mask_eq hw, fun a b c s =>
    ⟨_, execNand_eq a b c s, fun k hk => ?_, s.setReg_frame a _⟩⟩
  rw [s.reg_setReg_self, getLsbD_not_and _ _ hk]

end Sys2Proof.Proofs
end

section
/-! Halt and Unmap Segment (spec/42_halt_map_unmap.md R91 and R93): what freeing an id and halting leave unchanged,
that a state which is not running has no step, and the two statements, assembled from these rules and the cases of the
handlers. -/

namespace Sys2Proof.Machine

variable {s t : State}

/-- A handler that ends in a raised fault takes that fault. -/
theorem TakesFault.of_eq_raise {c : FaultCause} {o : Host.Outcome State Fault Refusal} (h : o = .next (s.raise c)) :
    TakesFault c s o := by
  rw [h, ← s.commit_error]
  exact s.takesFault_commit_error c

/-! ### What freeing an id does -/

theorem State.mapped_dropSegment_self (s : State) (id : Word) : (s.dropSegment id).mapped id = false := by
  rw [State.mapped_eq_false_iff, State.segLength_dropSegment, if_pos rfl]

/-- Dropping the segment at `id` changes no other segment. -/
theorem State.sameMemoryBut_dropSegment (s : State) (id : Word) : SameMemoryBut id s (s.dropSegment id) := fun j hj =>
  ⟨by rw [State.segLength_dropSegment, if_neg hj], fun k => by rw [State.wordAt_dropSegment, if_neg hj]⟩

/-- The frame of `SegFree`, beyond the memory and the free stack (R43). -/
theorem State.frame_of_eq_pushFree_dropSegment {id : Word} (ht : t = (s.dropSegment id).pushFree id) :
    t.hw = s.hw ∧ SameRegs s t ∧ t.pc = s.pc ∧ t.status = s.status ∧ SameHost s t := by
  subst ht
  exact ⟨rfl, fun _ => rfl, rfl, rfl, ⟨rfl, rfl, rfl⟩, rfl, rfl, rfl⟩

/-! ### Unmap by the id it is given -/

theorem execUnmap_of_zero {c : Reg} (h0 : s.reg c = 0#32) :
    exec (.unmap c) s = .next (s.raise .unmapSegmentZero) := by
  rcases execUnmap_cases c s with ⟨-, hexec⟩ | ⟨hne, -, -⟩ | ⟨hne, -, -⟩
  · exact hexec
  · exact absurd h0 hne
  · exact absurd h0 hne

theorem execUnmap_of_unmapped {c : Reg} (hne : s.reg c ≠ 0#32) (hm : s.mapped (s.reg c) = false) :
    exec (.unmap c) s = .next (s.raise (.unmapNotMapped (s.reg c))) := by
  rcases execUnmap_cases c s with ⟨h0, -⟩ | ⟨-, -, hexec⟩ | ⟨-, hm', -⟩
  · exact absurd h0 hne
  · exact hexec
  · simp [hm] at hm'

theorem execUnmap_of_mapped {c : Reg} (hne : s.reg c ≠ 0#32) (hm : s.mapped (s.reg c) = true) :
    exec (.unmap c) s = .next ((s.dropSegment (s.reg c)).pushFree (s.reg c)) := by
  rcases execUnmap_cases c s with ⟨h0, -⟩ | ⟨-, hn, -⟩ | ⟨-, -, hexec⟩
  · exact absurd h0 hne
  · simp [(s.mapped_eq_false_iff _).2 hn] at hm
  · exact hexec

/-! ### Halting -/

theorem State.sameButStatus_halt (s : State) : SameButStatus s s.halt :=
  ⟨fun _ => rfl, rfl, fun _ => ⟨rfl, fun _ => rfl⟩, ⟨rfl, rfl⟩, ⟨rfl, rfl, rfl⟩, rfl, rfl, rfl⟩

/-- No next state follows a state that is not running (R113). -/
theorem step_ne_next_of_not_running (h : s.status ≠ .running) (t : State) : step s ≠ .next t :=
  fun hstep => h (step_next_cases hstep).1

end Sys2Proof.Machine

namespace Sys2Proof.Proofs

open Sys2Proof.Machine

/-- Settles O40: the three ways an Unmap ends, by the id in `x[C]`. A segment of length 0 is freed as any other: the
handler asks only whether the id is mapped. -/
theorem unmapFreesTheSegment : Obligations.UnmapFreesTheSegment := by
  refine ⟨fun w hw => decode_of_mask_eq hw, fun c s =>
    ⟨fun h0 => ?zero, fun hne hm => ?unmapped, fun hne hm => ?mapped⟩⟩
  case zero => exact .of_eq_raise (execUnmap_of_zero h0)
  case unmapped => exact .of_eq_raise (execUnmap_of_unmapped hne hm)
  case mapped =>
    exact ⟨(s.dropSegment (s.reg c)).pushFree (s.reg c), execUnmap_of_mapped hne hm,
      s.mapped_dropSegment_self (s.reg c), s.sameMemoryBut_dropSegment (s.reg c), rfl,
      State.frame_of_eq_pushFree_dropSegment rfl⟩

/-- Settles O37: the halted state is the old one but for its status, and it is not running, so no step leads on. -/
theorem haltStopsWithSuccess : Obligations.HaltStopsWithSuccess := by
  refine ⟨fun w hw => decode_of_mask_eq hw, fun s =>
    ⟨s.halt, execHalt_eq s, s.halt_status, s.sameButStatus_halt, rfl, ?noStep⟩⟩
  case noStep => exact step_ne_next_of_not_running (by simp)

end Sys2Proof.Proofs
end

section
/-! Output (spec/43_io.md R95): the byte a word is truncated to, what a byte sent out leaves unchanged, and the
statement, assembled from its encoding, the handler's equation and these two rules. -/

namespace Sys2Proof.Machine

/-- The byte Output sends is its register modulo 256, so a value above 255 is truncated (R95). -/
@[simp] theorem lowByte_toNat (v : Word) : (lowByte v).toNat = v.toNat % 2 ^ 8 := by
  rw [lowByte, BitVec.extractLsb'_toNat, Nat.shiftRight_zero]

/-- The frame of a byte sent to the output stream (R97). -/
theorem State.out_frame (s : State) (b : Byte) :
    SameRegs s (s.out b) ∧ (s.out b).pc = s.pc ∧ SameMemory s (s.out b) ∧ SameAllocator s (s.out b) ∧
      (s.out b).status = s.status ∧ SameInput s (s.out b) ∧ SameDraws s (s.out b) :=
  ⟨s.out_reg b, s.out_pc b, fun j => ⟨s.out_segLength b j, s.out_wordAt b j⟩, ⟨s.out_free b, s.out_hw b⟩,
    s.out_status b, ⟨s.out_input b, s.out_inputRest b, s.out_inputLog b⟩, s.out_allocDraws b, s.out_allocRest b⟩

end Sys2Proof.Machine

namespace Sys2Proof.Proofs

open Sys2Proof.Machine

/-- Settles O42: the handler appends the low byte of `x[C]` to the output and changes nothing else. -/
theorem outputWritesTheLowByte : Obligations.OutputWritesTheLowByte := by
  refine ⟨fun w hw => decode_of_mask_eq hw, fun c s => ?_⟩
  exact ⟨s.out (lowByte (s.reg c)), lowByte (s.reg c), execOut_eq c s, s.out_output _, lowByte_toNat _,
    s.out_frame _⟩

end Sys2Proof.Proofs
end

section
/-! Load Value (spec/44_loadprogram_loadvalue.md R101): which words select it and with which immediate, the register it
writes, and the frame of that write. -/

namespace Sys2Proof.Proofs

open Sys2Proof.Machine

/-- Settles O45: opcode 13 selects Load Value with the fields of its own form, of which `IMM` is the low 25 bits, and
the handler writes the immediate to its register and nothing else. -/
theorem loadValueSetsTheImmediate : Obligations.LoadValueSetsTheImmediate := by
  refine ⟨fun w hw => ⟨?decodes, ?lowBits⟩, fun a imm s => ?completes⟩
  case decodes => exact decode_of_mask_eq hw
  case lowBits => exact immField_toNat w
  case completes =>
    exact ⟨s.setReg a imm, execLoadval_eq a imm s, s.reg_setReg_self a imm, s.setReg_frame a imm⟩

end Sys2Proof.Proofs
end

section
/-! How a run ends (spec/60_exceptions.md R129, R130): which status a handler leaves, in which steps the machine halts,
what a fetch past the end of segment 0 leads to, and the statement, assembled from these rules. -/

namespace Sys2Proof.Machine

variable {s t : State} {i : Instr}

/-- The success indication is given for the halted status alone (R130). -/
theorem statusExit_eq_success_iff (st : Status) : statusExit st = some .success ↔ st = .halted := by
  cases st <;> simp [statusExit]

/-- A handler run on a running state leaves the halted status exactly when it is Halt's (R91): a fault leaves the
faulted status, and every other effect leaves the status alone. -/
theorem HandlerEffect.status_eq_halted_iff (h : HandlerEffect s i t) (hr : s.status = .running) :
    t.status = .halted ↔ i = .halt := by
  cases h with
  | halted => simp
  | raised _ hh => simp [hh]
  | wroteRegister hh _ => simp [hr, hh]
  | nothing hh _ => simp [hr, hh]
  | stored | allocated | freed | wroteByte | tookEvent | waited | jumped | replaced => simp [hr]

/-- A step halts the machine exactly when the word it fetched decodes to Halt (R129). -/
theorem step_halts_iff (h : step s = .next t) :
    t.status = .halted ↔ ∃ w, s.wordAt 0#32 s.pc = some w ∧ decode w = .ok .halt := by
  obtain ⟨hr, ⟨hw, rfl⟩ | ⟨w, hw, ho, rfl⟩ | ⟨w, i, hw, hi, hexec⟩⟩ := step_next_cases h
  · simp [hw]
  · have hne : decode w ≠ .ok .halt := by
      rcases decode_cases w with ⟨hlt, -⟩ | ⟨-, hi⟩
      · omega
      · simp [hi]
    simp [hw, hne]
  · have heffect := (exec_next_effect hexec).status_eq_halted_iff (by rw [s.advance_status, hr])
    simp [hw, hi, heffect]

/-- A step whose fetch runs off the end of segment 0 faults with the length found there (R40). -/
theorem step_of_pc_past_end {n : Nat} (hr : s.status = .running) (hn : s.segLength 0#32 = some n)
    (hpc : n ≤ s.pc.toNat) : step s = .next (s.raiseAtFetch (.pcOutOfRange n)) := by
  rw [step_of_running hr, cycle, s.fetch_past_end hn hpc]

end Sys2Proof.Machine

namespace Sys2Proof.Proofs

open Sys2Proof.Machine

/-- Settles O20: the success indication means the halted status, and a step reaches that status through Halt alone; past
the end of segment 0 the step faults. -/
theorem haltIsTheOnlySuccess : Obligations.HaltIsTheOnlySuccess := by
  refine ⟨fun s t hstep => ?onlyHalt, fun s n hr hn hpc => ?pastEnd⟩
  case onlyHalt => rw [statusExit_eq_success_iff, step_halts_iff hstep]
  case pastEnd =>
    exact ⟨_, _, step_of_pc_past_end hr hn hpc, s.raiseAtFetch_status _, rfl, rfl⟩

end Sys2Proof.Proofs
end

section
/-! Words and instructions (spec/30_encoding.md R61, R66 to R70): the word of an instruction decodes to it, a word is an
instruction exactly below opcode 14, and the bits that an opcode does not use do not matter. -/

namespace Sys2Proof

/-! ### Decoding an encoded word -/

/-- A word of the three-register form decodes as the fields it was made of. -/
theorem decode_enc3 (op : BitVec 4) (a b c : Reg) :
    decode (enc3 op a b c) = select { fields (enc3 op a b c) with op := op, a := a, b := b, c := c } := by
  rw [decode_eq_select, fields, opField_enc3, regField_enc3_a, regField_enc3_b, regField_enc3_c]

/-- A word of the Load-Value form decodes to Load Value with the fields it was made of. -/
theorem decode_encLV (a : Reg) (imm : BitVec 25) : decode (encLV a imm) = .ok (.loadval a (imm.setWidth 32)) := by
  rw [decode_eq_select, fields, opField_encLV, regField_encLV, immField_encLV]
  rfl

/-- An immediate in range loses nothing in the 25 bits of its field (R63). -/
theorem setWidth_of_immInRange {imm : Word} (h : immInRange imm = true) : (imm.setWidth 25).setWidth 32 = imm := by
  have hlt : imm.toNat < 2 ^ 25 := of_decide_eq_true h
  apply BitVec.eq_of_toNat_eq
  rw [BitVec.toNat_setWidth, BitVec.toNat_setWidth]
  omega

/-- The canonical word of a well-formed instruction decodes to it, constructor by constructor (R69). -/
theorem decode_encode {i : Instr} (h : i.wellFormed = true) : decode (encode i) = .ok i := by
  cases i with
  | cmov a b c => exact decode_enc3 0#4 a b c
  | load a b c => exact decode_enc3 1#4 a b c
  | store a b c => exact decode_enc3 2#4 a b c
  | add a b c => exact decode_enc3 3#4 a b c
  | mul a b c => exact decode_enc3 4#4 a b c
  | div a b c => exact decode_enc3 5#4 a b c
  | nand a b c => exact decode_enc3 6#4 a b c
  | halt => exact decode_enc3 7#4 0 0 0
  | map b c => exact decode_enc3 8#4 0 b c
  | unmap c => exact decode_enc3 9#4 0 0 c
  | out c => exact decode_enc3 10#4 0 0 c
  | inp c => exact decode_enc3 11#4 0 0 c
  | loadprog b c => exact decode_enc3 12#4 0 b c
  | loadval a imm => rw [encode, decode_encLV, setWidth_of_immInRange h]

/-! ### What a decoded instruction is -/

/-- No word decodes to an instruction without an encoding: the one operand with a range is Load Value's (R63). -/
theorem wellFormed_of_decode {w : Word} {i : Instr} (h : decode w = .ok i) : i.wellFormed = true := by
  cases i with
  | loadval a imm =>
    obtain ⟨-, rfl⟩ := imm_of_decode h
    exact immInRange_immField w
  | _ => rfl

/-- A word decodes as its fields with its opcode written out. -/
theorem decode_of_opField_eq {w : Word} {op : BitVec 4} (h : opField w = op) :
    decode w = select { fields w with op := op } := by
  rw [decode_eq_select, ← h]
  rfl

theorem opField_eq_iff (w : Word) (op : BitVec 4) : opField w = op ↔ w.toNat / 2 ^ 28 = op.toNat := by
  rw [← BitVec.toNat_inj, opField_toNat]

theorem opValid_fields_iff (w : Word) : (fields w).opValid = true ↔ w.toNat / 2 ^ 28 < 14 := by
  rw [fields, decide_eq_true_iff, opField_toNat]

/-! ### The bits that decoding uses -/

/-- A register field is fixed by the bits of the word up to its own. -/
theorem regField_congr {w v : Word} {lo k : Nat} (hk : lo + 3 ≤ k) (h : w.toNat % 2 ^ k = v.toNat % 2 ^ k) :
    regField w lo = regField v lo := by
  have low (x : Word) : (regField x lo).val = x.toNat % 2 ^ k % 2 ^ (lo + 3) / 2 ^ lo := by
    rw [regField_val, Nat.mod_mod_of_dvd _ (Nat.pow_dvd_pow 2 hk), Nat.pow_add, Nat.mod_mul_right_div_self]
  apply Fin.ext
  rw [low, low, h]

/-- The handler select of every opcode but Load Value's uses the three register fields alone (R73). -/
theorem select_congr {d e : Fields} (hop : d.op = e.op) (hne : d.op ≠ 13#4) (ha : d.a = e.a) (hb : d.b = e.b)
    (hc : d.c = e.c) : select d = select e := by
  obtain ⟨op, a, b, c, la, imm, v⟩ := d
  obtain ⟨op', a', b', c', la', imm', v'⟩ := e
  obtain ⟨rfl, rfl, rfl, rfl⟩ : op = op' ∧ a = a' ∧ b = b' ∧ c = c' := ⟨hop, ha, hb, hc⟩
  obtain ⟨⟨n, hn⟩⟩ := op
  have h13 : n ≠ 13 := fun h => hne (BitVec.eq_of_toNat_eq h)
  interval_cases n <;> first
    | rfl
    | exact absurd rfl h13

theorem decode_eq_halt {w : Word} (h : opField w = 7#4) : decode w = .ok .halt := decode_of_opField_eq h

theorem decode_eq_map {w : Word} (h : opField w = 8#4) : decode w = .ok (.map (regField w 3) (regField w 0)) :=
  decode_of_opField_eq h

theorem decode_eq_unmap {w : Word} (h : opField w = 9#4) : decode w = .ok (.unmap (regField w 0)) :=
  decode_of_opField_eq h

theorem decode_eq_out {w : Word} (h : opField w = 10#4) : decode w = .ok (.out (regField w 0)) :=
  decode_of_opField_eq h

theorem decode_eq_inp {w : Word} (h : opField w = 11#4) : decode w = .ok (.inp (regField w 0)) :=
  decode_of_opField_eq h

theorem decode_eq_loadprog {w : Word} (h : opField w = 12#4) :
    decode w = .ok (.loadprog (regField w 3) (regField w 0)) :=
  decode_of_opField_eq h

end Sys2Proof

namespace Sys2Proof.Proofs

/-- Settles O3: the round trip of `decode_encode`. -/
theorem encodedInstructionsDecodeToThemselves : Obligations.EncodedInstructionsDecodeToThemselves :=
  fun _ hwf => decode_encode hwf

/-- Settles O1: each field as a number, by the rules of Laws/Decode. -/
theorem fieldsAreTheSpecBitSlices : Obligations.FieldsAreTheSpecBitSlices := by
  intro w
  have hc : (fields w).c.val = w.toNat % 2 ^ 3 :=
    (regField_val w 0).trans (congrArg (· % 8) (Nat.div_one w.toNat))
  exact ⟨opField_toNat w, regField_val w 6, regField_val w 3, hc, regField_val w 25, immField_toNat w,
    (opValid_fields_iff w).trans Nat.lt_succ_iff⟩

/-- Settles O4: the two answers of `decode`, by opcode. -/
theorem wordsAreInstructionsExactlyBelowOpcode14 : Obligations.WordsAreInstructionsExactlyBelowOpcode14 := by
  intro w
  rcases decode_cases w with ⟨hlt, i, hdecode, hop⟩ | ⟨hge, hdecode⟩
  · rw [opField_toNat] at hlt
    refine ⟨fun _ => ⟨i, hdecode, wellFormed_of_decode hdecode, by rw [hop, opField_toNat]⟩, fun hge => ?_⟩
    omega
  · rw [opField_toNat] at hge
    refine ⟨fun hle => ?_, fun _ => ⟨opField w, opField_toNat w, hdecode⟩⟩
    omega

/-- Settles O5: an opcode's words decode alike when the register fields it uses agree. -/
theorem ignoredBitsDoNotChangeDecoding : Obligations.IgnoredBitsDoNotChangeDecoding := by
  intro w v hop
  have alike {op : BitVec 4} (h : w.toNat / 2 ^ 28 = op.toNat) : opField w = op ∧ opField v = op :=
    ⟨(opField_eq_iff w op).2 h, (opField_eq_iff v op).2 (hop.symm.trans h)⟩
  refine ⟨fun hle hlow => ?threeRegister, fun h7 => ?halt, fun hops hlow => ?twoRegister, fun hops hlow => ?oneRegister⟩
  case threeRegister =>
    have hsame : opField w = opField v := by rw [opField_eq_iff, opField_toNat, hop]
    have hne : opField w ≠ 13#4 := fun h13 => by rw [opField_eq_thirteen_iff] at h13; omega
    exact select_congr hsame hne (regField_congr (by decide) hlow) (regField_congr (by decide) hlow)
      (regField_congr (by decide) hlow)
  case halt =>
    obtain ⟨hw, hv⟩ := alike (op := 7#4) h7
    rw [decode_eq_halt hw, decode_eq_halt hv]
  case twoRegister =>
    have hb : regField w 3 = regField v 3 := regField_congr (by decide) hlow
    have hc : regField w 0 = regField v 0 := regField_congr (by decide) hlow
    rcases hops with h8 | h12
    · obtain ⟨hw, hv⟩ := alike (op := 8#4) h8
      rw [decode_eq_map hw, decode_eq_map hv, hb, hc]
    · obtain ⟨hw, hv⟩ := alike (op := 12#4) h12
      rw [decode_eq_loadprog hw, decode_eq_loadprog hv, hb, hc]
  case oneRegister =>
    have hc : regField w 0 = regField v 0 := regField_congr (by decide) hlow
    rcases hops with h9 | h10 | h11
    · obtain ⟨hw, hv⟩ := alike (op := 9#4) h9
      rw [decode_eq_unmap hw, decode_eq_unmap hv, hc]
    · obtain ⟨hw, hv⟩ := alike (op := 10#4) h10
      rw [decode_eq_out hw, decode_eq_out hv, hc]
    · obtain ⟨hw, hv⟩ := alike (op := 11#4) h11
      rw [decode_eq_inp hw, decode_eq_inp hv, hc]

/-- Settles O6: seventeen closed words, each evaluated by the decoder. -/
theorem specWordsDecode : Obligations.SpecWordsDecode := by
  unfold Obligations.SpecWordsDecode
  decide

end Sys2Proof.Proofs
end

section
/-! Reset and the image (spec/70_reset_and_hazards.md R136; spec/20_memory.md R45): what the state right after reset
holds, that it meets both invariants, and how an image's bytes become its words. -/

namespace Sys2Proof.Machine

/-! ### The state after reset -/

theorem State.boot_reg (img : List Word) (r : Reg) : (State.boot img).reg r = 0#32 := State.reset_reg r

theorem State.boot_segLength_zero (img : List Word) : (State.boot img).segLength 0#32 = some img.length := by
  rw [State.segLength, State.boot_segment, if_pos rfl, Option.map_some, Segment.ofWords_length]

/-- Segment 0 is the only one mapped after reset (R136). -/
theorem State.boot_mapped_iff (img : List Word) (id : Word) : (State.boot img).mapped id = true ↔ id = 0#32 := by
  rw [State.mapped, State.boot_segment]
  split_ifs with h <;> simp [h]

/-- R27 after reset: the ids up to the high-water mark are the id 0 alone, which is mapped. -/
theorem idInvariant_boot (img : List Word) : IdInvariant (State.boot img) := by
  refine ⟨(State.boot_mapped_iff img _).2 rfl, fun id hle => ?upToMark, fun id hlt => ?aboveMark, List.nodup_nil⟩
  case upToMark =>
    have h0 : id = 0#32 := BitVec.le_zero_iff.1 hle
    exact iff_of_true ((State.boot_mapped_iff img id).2 h0) List.not_mem_nil
  case aboveMark =>
    have hne : id ≠ 0#32 := by rintro rfl; exact BitVec.lt_irrefl _ hlt
    exact ⟨Bool.eq_false_iff.2 fun hm => hne ((State.boot_mapped_iff img id).1 hm), List.not_mem_nil⟩

/-! ### An image's bytes -/

/-- Four bytes make one word, the first in bits 31..24 (R45). -/
theorem append_bytes_toNat (b0 b1 b2 b3 : Byte) :
    (b0 ++ b1 ++ b2 ++ b3 : Word).toNat = b0.toNat * 2 ^ 24 + b1.toNat * 2 ^ 16 + b2.toNat * 2 ^ 8 + b3.toNat := by
  have h1 := b1.isLt
  have h2 := b2.isLt
  have h3 := b3.isLt
  simp only [BitVec.toNat_append]
  rw [← Nat.shiftLeft_add_eq_or_of_lt h3, ← Nat.shiftLeft_add_eq_or_of_lt h2, ← Nat.shiftLeft_add_eq_or_of_lt h1]
  simp only [Nat.shiftLeft_eq]
  omega

/-- What the loader answers, by the byte count: an image of one word for each four bytes, or none (log 17). -/
theorem imageOfBytes_cases (bytes : List Byte) :
    (∃ ws, imageOfBytes bytes = some ws ∧ bytes.length = 4 * ws.length) ∨
    (bytes.length % 4 ≠ 0 ∧ imageOfBytes bytes = none) := by
  induction bytes using imageOfBytes.induct with
  | case1 => exact .inl ⟨[], rfl, rfl⟩
  | case2 b0 b1 b2 b3 rest ih =>
    rcases ih with ⟨ws, hws, hlen⟩ | ⟨hlen, hnone⟩
    · refine .inl ⟨(b0 ++ b1 ++ b2 ++ b3 : Word) :: ws, by rw [imageOfBytes, hws, Option.map_some], ?_⟩
      simp only [List.length_cons]
      omega
    · refine .inr ⟨?_, by rw [imageOfBytes, hnone, Option.map_none]⟩
      simp only [List.length_cons]
      omega
  | case3 bytes hnil hfour =>
    match bytes with
    | [] => exact absurd rfl hnil
    | [_] | [_, _] | [_, _, _] => exact .inr ⟨by simp, rfl⟩
    | b0 :: b1 :: b2 :: b3 :: rest => exact absurd rfl (hfour b0 b1 b2 b3 rest)

end Sys2Proof.Machine

namespace Sys2Proof.Proofs

open Sys2Proof.Machine

/-- Settles O8: the image stands in segment 0, and nothing else is mapped. -/
theorem resetLoadsTheImage : Obligations.ResetLoadsTheImage := by
  intro img
  have hunmapped (id : Word) (hid : id ≠ 0#32) : (State.boot img).mapped id = false :=
    Bool.eq_false_iff.2 fun hm => hid ((State.boot_mapped_iff img id).1 hm)
  exact ⟨State.boot_segLength_zero img, State.boot_wordAt img, hunmapped, rfl, rfl, rfl⟩

/-- Settles O9: one word for each four bytes, and its value. -/
theorem imageBytesAreBigEndian : Obligations.ImageBytesAreBigEndian := by
  refine ⟨rfl, fun b0 b1 b2 b3 rest ws hws => ?word, fun bytes hlen => ?image, fun bytes hlen => ?noImage⟩
  case word => exact ⟨_, by rw [imageOfBytes, hws, Option.map_some], append_bytes_toNat b0 b1 b2 b3⟩
  case image =>
    rcases imageOfBytes_cases bytes with himage | ⟨hne, -⟩
    · exact himage
    · exact absurd hlen hne
  case noImage =>
    rcases imageOfBytes_cases bytes with ⟨ws, -, hws⟩ | ⟨-, hnone⟩
    · omega
    · exact hnone

/-- Settles O7: reset writes 0 to every register and to `pc`, and the image goes to the memory alone. -/
theorem resetRegistersAndPcAreZero : Obligations.ResetRegistersAndPcAreZero :=
  ⟨State.boot_empty.symm, fun img => ⟨State.boot_reg img, rfl⟩⟩

/-- Settles O12: both invariants after reset with an image; `State.reset` has the empty one. -/
theorem resetMeetsTheInvariants : Obligations.ResetMeetsTheInvariants := by
  refine ⟨?empty, fun img hlen => ⟨idInvariant_boot img, State.wf_boot hlen⟩⟩
  case empty =>
    rw [← State.boot_empty]
    exact ⟨idInvariant_boot [], State.wf_boot (Nat.zero_le _)⟩

end Sys2Proof.Proofs
end

section
/-! Map Segment (spec/42_halt_map_unmap.md R92, R94; spec/20_memory.md R42): the state a Map leaves that does not fault,
observer by observer, when it does not fault, and which id it takes: a fresh one, and the last one freed first. -/

namespace Sys2Proof.Machine

variable {s t : State} {b c : Reg} {n : Nat}

/-! ### The state after a Map -/

/-- The state a Map of `n` words into `x[b]` leaves when it does not fault: one draw used, the next id taken and mapped
to `n` zero words, and that id in the register (R42, R92). -/
def State.afterMap (s : State) (b : Reg) (n : Nat) : State :=
  (s.takeDraw.takeId.setSegment s.nextId (Segment.zeros n)).setReg b s.nextId

@[simp] theorem State.afterMap_reg_self (s : State) (b : Reg) (n : Nat) : (s.afterMap b n).reg b = s.nextId :=
  State.reg_setReg_self _ b _

@[simp] theorem State.afterMap_free (s : State) (b : Reg) (n : Nat) : (s.afterMap b n).free = s.free.tail := by
  simp [State.afterMap]

@[simp] theorem State.afterMap_hw (s : State) (b : Reg) (n : Nat) :
    (s.afterMap b n).hw = if s.free.isEmpty then s.hw + 1#32 else s.hw := by
  simp [State.afterMap]

@[simp] theorem State.afterMap_pc (s : State) (b : Reg) (n : Nat) : (s.afterMap b n).pc = s.pc := by
  simp [State.afterMap]

@[simp] theorem State.afterMap_status (s : State) (b : Reg) (n : Nat) : (s.afterMap b n).status = s.status := by
  simp [State.afterMap]

theorem State.afterMap_segment (s : State) (b : Reg) (n : Nat) (j : Word) :
    (s.afterMap b n).segment j = if j = s.nextId then some (Segment.zeros n) else s.segment j := by
  simp [State.afterMap, State.segment_setSegment]

theorem State.afterMap_segLength (s : State) (b : Reg) (n : Nat) (j : Word) :
    (s.afterMap b n).segLength j = if j = s.nextId then some n else s.segLength j := by
  simp [State.afterMap, State.segLength_setSegment]

/-- The new segment reads 0 at every offset below its length (R42). -/
theorem State.afterMap_wordAt_nextId (s : State) (b : Reg) {off : Word} (h : off.toNat < n) :
    (s.afterMap b n).wordAt s.nextId off = some 0#32 := by
  rw [State.wordAt, State.afterMap_segment, if_pos rfl, Option.bind_some, Segment.zeros_read, if_pos h]

theorem State.sameMemoryBut_afterMap (s : State) (b : Reg) (n : Nat) : SameMemoryBut s.nextId s (s.afterMap b n) := by
  intro j hj
  have hseg : (s.afterMap b n).segment j = s.segment j := by rw [State.afterMap_segment, if_neg hj]
  exact ⟨by rw [State.segLength, hseg, ← State.segLength], fun k => by rw [State.wordAt, hseg, ← State.wordAt]⟩

theorem State.sameRegsBut_afterMap (s : State) (b : Reg) (n : Nat) : SameRegsBut b s (s.afterMap b n) := by
  intro r hr
  simp [State.afterMap, State.reg_setReg_ne _ _ hr]

/-- A Map touches neither stream of the host. -/
theorem State.streams_afterMap (s : State) (b : Reg) (n : Nat) :
    SameInput s (s.afterMap b n) ∧ (s.afterMap b n).output = s.output := by
  simp [SameInput, State.afterMap]

/-- A Map uses one draw of the host (log 6). -/
theorem State.draws_afterMap (s : State) (b : Reg) (n : Nat) :
    (s.afterMap b n).allocDraws = s.allocDraws.tail ∧ (s.afterMap b n).allocRest = s.allocRest := by
  simp [State.afterMap]

/-! ### When a Map faults, and when it does not -/

theorem State.idsExhausted_eq_false_iff (s : State) :
    s.idsExhausted = false ↔ s.free ≠ [] ∨ s.hw ≠ 0xFFFFFFFF#32 := by
  rw [← Bool.not_eq_true, State.idsExhausted_iff, not_and_or]

theorem execMap_of_exhausted (h : s.idsExhausted = true) :
    exec (.map b c) s = .next (s.raise (.segmentIdExhausted (s.reg c))) := by
  rcases execMap_cases b c s with ⟨-, hexec⟩ | ⟨hx, -⟩ | ⟨hx, -⟩
  · exact hexec
  · simp [h] at hx
  · simp [h] at hx

theorem execMap_of_allocFails (h : s.idsExhausted = false) (ha : s.allocFails = true) :
    exec (.map b c) s = .next (s.raise (.allocationFailure (s.reg c))) := by
  rcases execMap_cases b c s with ⟨hx, -⟩ | ⟨-, -, hexec⟩ | ⟨-, ha', -⟩
  · simp [h] at hx
  · exact hexec
  · simp [ha] at ha'

theorem execMap_of_allocated (h : s.idsExhausted = false) (ha : s.allocFails = false) :
    exec (.map b c) s = .next (s.afterMap b (s.reg c).toNat) := by
  rcases execMap_cases b c s with ⟨hx, -⟩ | ⟨-, ha', -⟩ | ⟨-, -, hexec⟩
  · simp [h] at hx
  · simp [ha] at ha'
  · exact hexec

theorem State.raise_not_running (s : State) (f : FaultCause) : (s.raise f).status ≠ .running := by
  simp

/-- A Map that leaves the machine running has not faulted, so an id was left to take. -/
theorem eq_afterMap_of_running (h : exec (.map b c) s = .next t) (hr : t.status = .running) :
    s.idsExhausted = false ∧ t = s.afterMap b (s.reg c).toNat := by
  rcases execMap_cases b c s with ⟨-, hexec⟩ | ⟨-, -, hexec⟩ | ⟨hx, -, hexec⟩
  all_goals obtain rfl : _ = t := Host.Outcome.next.inj (hexec.symm.trans h)
  · exact absurd hr (s.raise_not_running _)
  · exact absurd hr (s.raise_not_running _)
  · exact ⟨hx, rfl⟩

/-- An Unmap that leaves the machine running has not faulted. -/
theorem eq_pushFree_of_running (h : exec (.unmap c) s = .next t) (hr : t.status = .running) :
    t = (s.dropSegment (s.reg c)).pushFree (s.reg c) := by
  rcases execUnmap_cases c s with ⟨-, hexec⟩ | ⟨-, -, hexec⟩ | ⟨-, -, hexec⟩
  all_goals obtain rfl : _ = t := Host.Outcome.next.inj (hexec.symm.trans h)
  · exact absurd hr (s.raise_not_running _)
  · exact absurd hr (s.raise_not_running _)
  · rfl

/-! ### The id taken -/

theorem State.nextId_of_free_nil (h : s.free = []) : s.nextId = s.hw + 1#32 := by
  simp [State.nextId, h]

theorem State.nextId_of_free_cons {top : Word} {rest : List Word} (h : s.free = top :: rest) : s.nextId = top := by
  simp [State.nextId, h]

/-- With an id left and none on the free stack, the next fresh id does not wrap (decision D8). -/
theorem State.hw_lt_succ (hx : s.idsExhausted = false) (hf : s.free = []) : s.hw < s.hw + 1#32 := by
  have hne : s.hw ≠ 0xFFFFFFFF#32 := ((s.idsExhausted_eq_false_iff).1 hx).resolve_left (not_not.2 hf)
  bv_omega

/-- The next id is not mapped: what is on the free stack is not, and nothing above the high-water mark is (R27). -/
theorem IdInvariant.mapped_nextId (h : IdInvariant s) (hx : s.idsExhausted = false) : s.mapped s.nextId = false := by
  obtain ⟨-, hupTo, habove, -⟩ := h
  cases hf : s.free with
  | nil =>
    rw [State.nextId_of_free_nil hf]
    exact (habove _ (State.hw_lt_succ hx hf)).1
  | cons top rest =>
    rw [State.nextId_of_free_cons hf]
    have hmem : top ∈ s.free := hf ▸ List.mem_cons_self
    by_cases hle : top ≤ s.hw
    · exact Bool.eq_false_iff.2 fun hm => (hupTo top hle).1 hm hmem
    · exact (habove top (BitVec.not_le.1 hle)).1

/-- Segment 0 is mapped, so 0 is never the next id. -/
theorem IdInvariant.nextId_ne_zero (h : IdInvariant s) (hx : s.idsExhausted = false) : s.nextId ≠ 0#32 := by
  intro h0
  have hm : s.mapped 0#32 = false := h0 ▸ h.mapped_nextId hx
  exact absurd h.1 (Bool.eq_false_iff.1 hm)

/-- A completed Map after an id was pushed takes that id and pops it. -/
theorem map_takes_top {top : Word} {rest : List Word} (h : exec (.map b c) s = .next t) (hr : t.status = .running)
    (hf : s.free = top :: rest) : t.reg b = top ∧ t.free = rest ∧ t.hw = s.hw := by
  obtain ⟨-, rfl⟩ := eq_afterMap_of_running h hr
  simp [State.nextId_of_free_cons hf, hf]

/-- A completed Map with nothing on the free stack takes the next fresh id. -/
theorem map_takes_fresh (h : exec (.map b c) s = .next t) (hr : t.status = .running) (hf : s.free = []) :
    t.reg b = s.hw + 1#32 := by
  obtain ⟨-, rfl⟩ := eq_afterMap_of_running h hr
  rw [State.afterMap_reg_self, State.nextId_of_free_nil hf]

/-- A completed Unmap pushes its id, and leaves the registers and the high-water mark (R43). -/
theorem unmap_pushes (h : exec (.unmap c) s = .next t) (hr : t.status = .running) :
    t.free = s.reg c :: s.free ∧ t.hw = s.hw ∧ SameRegs s t := by
  obtain rfl := eq_pushFree_of_running h hr
  exact ⟨rfl, rfl, fun _ => rfl⟩

/-- The segment a completed Map makes has the length asked for and reads 0 throughout (R42). -/
theorem map_zeroes (h : exec (.map b c) s = .next t) (hr : t.status = .running) :
    t.segLength (t.reg b) = some (s.reg c).toNat ∧
      ∀ off : Word, off.toNat < (s.reg c).toNat → t.wordAt (t.reg b) off = some 0#32 := by
  obtain ⟨-, rfl⟩ := eq_afterMap_of_running h hr
  rw [State.afterMap_reg_self]
  exact ⟨by rw [State.afterMap_segLength, if_pos rfl], fun off ho => s.afterMap_wordAt_nextId b ho⟩

end Sys2Proof.Machine

namespace Sys2Proof.Proofs

open Sys2Proof.Machine

/-- Settles O38: the two faults in the order of R122, and the completed Map on either side of the free stack. -/
theorem mapAssignsZeroedSegments : Obligations.MapAssignsZeroedSegments := by
  refine ⟨fun w hw => decode_of_mask_eq hw, fun b c s =>
    ⟨fun hf hhw => ?exhausted, fun hleft => ⟨fun ha => ?allocFails, fun ha => ?completes⟩⟩⟩
  case exhausted => exact .of_eq_raise (execMap_of_exhausted (s.idsExhausted_iff.2 ⟨hf, hhw⟩))
  case allocFails => exact .of_eq_raise (execMap_of_allocFails (s.idsExhausted_eq_false_iff.2 hleft) ha)
  case completes =>
    have hx := s.idsExhausted_eq_false_iff.2 hleft
    refine ⟨s.afterMap b (s.reg c).toNat, s.nextId, execMap_of_allocated hx ha, s.afterMap_reg_self b _,
      fun top rest hf => ?popped, fun hf => ?fresh, by rw [State.afterMap_segLength, if_pos rfl],
      fun off ho => s.afterMap_wordAt_nextId b ho, s.sameMemoryBut_afterMap b _, s.sameRegsBut_afterMap b _,
      s.afterMap_pc b _, s.afterMap_status b _, (s.streams_afterMap b _).1, (s.streams_afterMap b _).2,
      s.draws_afterMap b _⟩
    case popped => simp [State.nextId_of_free_cons hf, hf]
    case fresh =>
      have hlt := State.hw_lt_succ hx hf
      refine ⟨?_, by simp [hf], by simp [State.nextId_of_free_nil hf, hf]⟩
      rw [State.nextId_of_free_nil hf]
      bv_omega

/-- Settles O39: the id of a completed Map is the next id, which the id invariant keeps fresh. -/
theorem mapAssignsAFreshNonzeroId : Obligations.MapAssignsAFreshNonzeroId := by
  intro b c s t hinv _ hexec hr
  obtain ⟨hx, rfl⟩ := eq_afterMap_of_running hexec hr
  rw [State.afterMap_reg_self]
  exact ⟨hinv.nextId_ne_zero hx, hinv.mapped_nextId hx⟩

/-- Settles O41: the free stack followed through each run. -/
theorem idsAreReusedLastInFirstOut : Obligations.IdsAreReusedLastInFirstOut := by
  refine ⟨fun s s1 s2 s3 b c d e _ _ h2 hr2 h3 hr3 => ?mapUnmapMap,
    fun s s1 s2 s3 s4 p q b c d e h1 hr1 h2 hr2 h3 hr3 h4 hr4 => ?twoUnmapsTwoMaps⟩
  case mapUnmapMap =>
    obtain ⟨hfree2, -, -⟩ := unmap_pushes h2 hr2
    obtain ⟨hid, -, -⟩ := map_takes_top h3 hr3 hfree2
    exact ⟨hid, map_zeroes h3 hr3⟩
  case twoUnmapsTwoMaps =>
    obtain ⟨hfree1, hhw1, hregs1⟩ := unmap_pushes h1 hr1
    obtain ⟨hfree2, hhw2, -⟩ := unmap_pushes h2 hr2
    obtain ⟨hsecond, hfree3, hhw3⟩ := map_takes_top h3 hr3 hfree2
    obtain ⟨hfirst, hfree4, hhw4⟩ := map_takes_top h4 hr4 (hfree3.trans hfree1)
    refine ⟨hsecond.trans (hregs1 q), hfirst, fun s5 f g hfree h5 hr5 => ?_⟩
    rw [map_takes_fresh h5 hr5 (hfree4.trans hfree), hhw4, hhw3, hhw2, hhw1]

end Sys2Proof.Proofs
end

section
/-! One step (spec/45_execution_cycle.md R104 to R113): it answers a next state exactly when the machine runs, and what
the fetch, the dispatcher and a fault leave in that state. -/

namespace Sys2Proof.Machine

variable {s t : State} {i : Instr} {w : Word} {n : Nat}

/-! ### A next state from every running state -/

theorem State.commit_next (s : State) (r : Except FaultCause State) : ∃ t, s.commit r = .next t := by
  rcases s.commit_cases r with ⟨t, -, h⟩ | ⟨f, -, h⟩
  · exact ⟨t, h⟩
  · exact ⟨_, h⟩

/-- Every handler answers a next state: it commits its writes, or its fault is taken (R111, R119). -/
theorem exec_next (i : Instr) (s : State) : ∃ t, exec i s = .next t := by
  cases i with
  | load | store | div | map | unmap | loadprog => exact s.commit_next _
  | cmov | add | mul | nand | halt | out | inp | loadval => exact ⟨_, rfl⟩

/-- A running machine fetches a word that decodes, or one with an illegal opcode, or none. -/
theorem step_next_of_running (hr : s.status = .running) : ∃ t, step s = .next t := by
  cases hw : s.wordAt 0#32 s.pc with
  | none => exact ⟨_, step_of_fetch_fault hr hw⟩
  | some w =>
    rcases decode_cases w with ⟨-, i, hi, -⟩ | ⟨hop, -⟩
    · rw [step_of_decode hr hw hi]
      exact exec_next i s.advance
    · exact ⟨_, step_of_invalid hr hw hop⟩

theorem step_of_halted (h : s.status = .halted) : step s = .fault .halted := by
  simp [step, h]

theorem step_of_faulted {f : FaultRecord} (h : s.status = .faulted f) : step s = .fault (.faulted f) := by
  simp [step, h]

/-! ### The fetch -/

theorem State.wordAt_of_lt_segLength {id off : Word} (hn : s.segLength id = some n) (ho : off.toNat < n) :
    ∃ v, s.wordAt id off = some v := by
  obtain ⟨v, hv, -⟩ := State.segRead_of_lt_length hn ho
  exact ⟨v, hv⟩

/-- A fetch raises `PcOutOfRange` and no other fault (R40). -/
theorem State.fetch_error_eq {f : FaultCause} (h : s.fetch = .error f) : ∃ n, f = .pcOutOfRange n := by
  rcases s.fetch_cases with ⟨w, -, hf⟩ | ⟨-, hf⟩
  · simp [hf] at h
  · exact ⟨_, Except.error.inj (h.symm.trans hf)⟩

/-! ### The increment, and a fault taken -/

theorem State.advance_frame (s : State) : SameRegs s s.advance ∧ SameBeyondRegs s s.advance :=
  ⟨s.advance_reg, fun j => ⟨s.advance_segLength j, s.advance_wordAt j⟩, ⟨rfl, rfl⟩, rfl, ⟨rfl, rfl, rfl⟩, rfl, rfl, rfl⟩

theorem State.sameButStatus_raiseAtFetch (s : State) (f : FaultCause) : SameButStatus s (s.raiseAtFetch f) :=
  ⟨fun _ => rfl, rfl, fun _ => ⟨rfl, fun _ => rfl⟩, ⟨rfl, rfl⟩, ⟨rfl, rfl, rfl⟩, rfl, rfl, rfl⟩

theorem SameButStatus.forget_pc (h : SameButStatus s t) : SameButStatusAndPc s t := by
  obtain ⟨hregs, -, hrest⟩ := h
  exact ⟨hregs, hrest⟩

/-- A fault raised after the increment leaves the state before the step but for `pc` and the status (R120). -/
theorem State.sameButStatusAndPc_advance_raise (s : State) (f : FaultCause) :
    SameButStatusAndPc s (s.advance.raise f) :=
  (s.advance.sameButStatus_raise f).forget_pc

/-- A handler run on a running state leaves a faulted status by raising its fault, which is never the fetch's. -/
theorem HandlerEffect.eq_raise_of_faulted {f : FaultRecord} (h : HandlerEffect s i t) (hr : s.status = .running)
    (hf : t.status = .faulted f) : ∃ c : FaultCause, (∀ n, c ≠ .pcOutOfRange n) ∧ t = s.raise c := by
  cases h with
  | raised hc _ => exact ⟨_, hc, rfl⟩
  | halted => simp at hf
  | wroteRegister | nothing | stored | allocated | freed | wroteByte | tookEvent | waited | jumped | replaced =>
    simp [hr] at hf

/-- A step that leaves a faulted status is a fetch fault, or a fault raised after the increment (R119). -/
theorem step_faulted_cases {f : FaultRecord} (h : step s = .next t) (hf : t.status = .faulted f) :
    (∃ n, t = s.raiseAtFetch (.pcOutOfRange n)) ∨
    (∃ w c, s.wordAt 0#32 s.pc = some w ∧ (∀ n, c ≠ .pcOutOfRange n) ∧ t = s.advance.raise c) := by
  obtain ⟨hr, ⟨-, rfl⟩ | ⟨w, hw, -, rfl⟩ | ⟨w, i, hw, -, hexec⟩⟩ := step_next_cases h
  · exact .inl ⟨_, rfl⟩
  · exact .inr ⟨w, _, hw, by simp, rfl⟩
  · obtain ⟨c, hc, rfl⟩ := (exec_next_effect hexec).eq_raise_of_faulted hr hf
    exact .inr ⟨w, c, hw, hc, rfl⟩

end Sys2Proof.Machine

namespace Sys2Proof.Proofs

open Sys2Proof.Machine

/-- Settles O17: the two ways a step can leave a faulted status, each with its record and its `pc`. -/
theorem faultsArePrecise : Obligations.FaultsArePrecise := by
  intro s t f hstep hf
  rcases step_faulted_cases hstep hf with ⟨n, rfl⟩ | ⟨w, c, hw, hc, rfl⟩
  case inl =>
    obtain rfl := Status.faulted.inj hf
    exact ⟨(s.sameButStatus_raiseAtFetch _).forget_pc, rfl, fun _ _ => ⟨rfl, rfl⟩, fun hne => absurd rfl (hne n)⟩
  case inr =>
    obtain rfl := Status.faulted.inj ((s.raise_advance_status c).symm.trans hf)
    exact ⟨s.sameButStatusAndPc_advance_raise c, rfl, fun m hm => absurd hm (hc m), fun _ => ⟨rfl, w, hw, hw⟩⟩

/-- Settles O19: whatever is fetched, the step answers a next state. -/
theorem runningMachineAlwaysSteps : Obligations.RunningMachineAlwaysSteps :=
  fun _ hr => step_next_of_running hr

/-- Settles O13: the step is the handler's, on the state after the increment. -/
theorem stepRunsTheDecodedInstruction : Obligations.StepRunsTheDecodedInstruction :=
  fun s _ _ hr hw hi => ⟨wellFormed_of_decode hi, step_of_decode hr hw hi, rfl, s.advance_frame⟩

/-- Settles O14: the two answers of `Fetch`, by `pc` and the length of segment 0. -/
theorem fetchReadsTheWordAtPc : Obligations.FetchReadsTheWordAtPc := by
  refine ⟨fun s n hn => ⟨fun hpc => s.fetch_past_end hn hpc, fun hpc => ?inRange⟩, fun _ _ => State.fetch_error_eq⟩
  case inRange =>
    obtain ⟨w, hw⟩ := State.wordAt_of_lt_segLength hn hpc
    exact ⟨w, hw, (s.fetch_eq_ok_iff w).2 hw⟩

/-- Settles O15: the step of a fetch past the end. -/
theorem fetchPastTheEndFaults : Obligations.FetchPastTheEndFaults :=
  fun s _ hr hn hpc =>
    ⟨_, step_of_pc_past_end hr hn hpc, s.raiseAtFetch_status _, s.sameButStatus_raiseAtFetch _⟩

/-- Settles O16: the step of an illegal word. -/
theorem illegalOpcodeFaults : Obligations.IllegalOpcodeFaults := by
  intro s w hr hw hop
  have hinvalid : (fields w).opValid = false := by
    rw [← Bool.not_eq_true, opValid_fields_iff]
    exact Nat.not_lt.2 hop
  have hstatus := s.raise_advance_status (.invalidOpcode (opField w))
  rw [hw] at hstatus
  rw [← opField_toNat] at hop
  exact ⟨hinvalid, _, step_of_invalid hr hw hop, hstatus, rfl, s.sameButStatusAndPc_advance_raise _⟩

/-- Settles O18: the step reads the status first. -/
theorem terminalStatesAreFinal : Obligations.TerminalStatesAreFinal :=
  fun _ hr => ⟨step_ne_next_of_not_running hr, step_of_halted, fun _ => step_of_faulted⟩

end Sys2Proof.Proofs
end

section
/-! What every step keeps (spec/10_state.md R27, R30; log 7): the invariants, each carried through the effects a handler
can have, and the parts of the state that only certain instructions change. -/

namespace Sys2Proof.Machine

variable {s t : State} {i : Instr}

/-! ### One step, from the effect of its handler -/

/-- A step that answers a next state took a fault, before or after the increment, or ran the handler of the instruction
it fetched. -/
theorem step_next_effect (h : step s = .next t) :
    (∃ f, t = s.raiseAtFetch f) ∨ (∃ f, t = s.advance.raise f) ∨
    ∃ w i, s.wordAt 0#32 s.pc = some w ∧ decode w = .ok i ∧ HandlerEffect s.advance i t := by
  obtain ⟨-, ⟨-, rfl⟩ | ⟨w, -, -, rfl⟩ | ⟨w, i, hw, hi, hexec⟩⟩ := step_next_cases h
  · exact .inl ⟨_, rfl⟩
  · exact .inr (.inl ⟨_, rfl⟩)
  · exact .inr (.inr ⟨w, i, hw, hi, exec_next_effect hexec⟩)

/-- What the increment, a taken fault and every handler keep, every step keeps. -/
theorem step_keeps {P : State → Prop} (hadvance : ∀ s, P s → P s.advance) (hfault : ∀ s r, P s → P (s.takeFault r))
    (hhandler : ∀ s i t, HandlerEffect s i t → P s → P t) (hs : P s) (h : step s = .next t) : P t := by
  rcases step_next_effect h with ⟨f, rfl⟩ | ⟨f, rfl⟩ | ⟨w, i, -, -, heffect⟩
  · exact hfault s _ hs
  · exact hfault s.advance _ (hadvance s hs)
  · exact hhandler s.advance i t heffect (hadvance s hs)

/-! ### The id invariant -/

theorem State.mapped_setSegment (s : State) (id j : Word) (g : Segment) :
    (s.setSegment id g).mapped j = true ↔ j = id ∨ s.mapped j = true := by
  rw [State.mapped, State.segment_setSegment]
  split_ifs with h <;> simp [h, State.mapped]

theorem State.mapped_dropSegment (s : State) (id j : Word) :
    (s.dropSegment id).mapped j = true ↔ j ≠ id ∧ s.mapped j = true := by
  rw [State.mapped, State.segment_dropSegment]
  split_ifs with h <;> simp [h, State.mapped]

theorem State.mapped_afterMap (s : State) (b : Reg) (n : Nat) (j : Word) :
    (s.afterMap b n).mapped j = true ↔ j = s.nextId ∨ s.mapped j = true := by
  rw [State.mapped, State.afterMap_segment]
  split_ifs with h <;> simp [h, State.mapped]

/-- The id invariant reads which ids are mapped, the free stack and the high-water mark, and nothing else. -/
theorem IdInvariant.congr (h : IdInvariant s) (hm : ∀ id, t.mapped id = s.mapped id) (hf : t.free = s.free)
    (hh : t.hw = s.hw) : IdInvariant t := by
  simpa only [IdInvariant, hm, hf, hh] using h

/-- Putting a segment where one is mapped maps no other id. -/
theorem IdInvariant.setSegment (h : IdInvariant s) {id : Word} (hm : s.mapped id = true) (g : Segment) :
    IdInvariant (s.setSegment id g) := by
  refine h.congr (fun j => Bool.eq_iff_iff.2 ?_) rfl rfl
  rw [State.mapped_setSegment]
  exact or_iff_right_of_imp fun hj => hj ▸ hm

/-- Only ids up to the high-water mark are mapped. -/
theorem IdInvariant.le_hw_of_mapped (h : IdInvariant s) {id : Word} (hm : s.mapped id = true) : id ≤ s.hw := by
  obtain ⟨-, -, habove, -⟩ := h
  exact BitVec.not_lt.1 fun hlt => absurd hm (Bool.eq_false_iff.1 (habove id hlt).1)

/-- With the free stack empty, a Map moves its id from just above the high-water mark to the mapped ones. -/
theorem IdInvariant.afterMap_of_free_nil (h : IdInvariant s) (hx : s.idsExhausted = false) (hf : s.free = [])
    (b : Reg) (n : Nat) : IdInvariant (s.afterMap b n) := by
  obtain ⟨hzero, hupTo, habove, -⟩ := h
  have hlt := State.hw_lt_succ hx hf
  have hhw : (s.afterMap b n).hw = s.hw + 1#32 := by simp [hf]
  have hfree : (s.afterMap b n).free = [] := by simp [hf]
  have hmapped := s.mapped_afterMap b n
  simp only [State.nextId_of_free_nil hf] at hmapped
  refine ⟨(hmapped _).2 (.inr hzero), fun id hle => ?upToMark, fun id hgt => ?aboveMark, hfree ▸ List.nodup_nil⟩
  case upToMark =>
    refine iff_of_true ((hmapped id).2 ?_) (hfree ▸ List.not_mem_nil)
    rw [hhw] at hle
    by_cases hid : id = s.hw + 1#32
    · exact .inl hid
    · exact .inr ((hupTo id (by bv_omega)).2 (hf ▸ List.not_mem_nil))
  case aboveMark =>
    rw [hhw] at hgt
    refine ⟨Bool.eq_false_iff.2 fun hm => ?_, hfree ▸ List.not_mem_nil⟩
    rcases (hmapped id).1 hm with rfl | hm
    · exact BitVec.lt_irrefl _ hgt
    · exact absurd hm (Bool.eq_false_iff.1 (habove id (BitVec.lt_trans hlt hgt)).1)

/-- Otherwise it moves its id from the top of the free stack to the mapped ones. -/
theorem IdInvariant.afterMap_of_free_cons (h : IdInvariant s) {top : Word} {rest : List Word}
    (hf : s.free = top :: rest) (b : Reg) (n : Nat) : IdInvariant (s.afterMap b n) := by
  obtain ⟨hzero, hupTo, habove, hnodup⟩ := h
  have hhw : (s.afterMap b n).hw = s.hw := by simp [hf]
  have hfree : (s.afterMap b n).free = rest := by simp [hf]
  have hmapped := s.mapped_afterMap b n
  simp only [State.nextId_of_free_cons hf] at hmapped
  simp only [hf, List.mem_cons, not_or] at hupTo habove
  obtain ⟨htop, hrest⟩ := List.nodup_cons.1 (hf ▸ hnodup)
  refine ⟨(hmapped _).2 (.inr hzero), fun id hle => ?upToMark, fun id hgt => ?aboveMark, hfree ▸ hrest⟩
  case upToMark =>
    rw [hmapped, hfree, hupTo id (hhw ▸ hle)]
    by_cases hid : id = top
    · exact iff_of_true (.inl hid) (hid ▸ htop)
    · simp [hid]
  case aboveMark =>
    obtain ⟨hunmapped, hne, hnotIn⟩ := habove id (hhw ▸ hgt)
    refine ⟨Bool.eq_false_iff.2 fun hm => ?_, hfree ▸ hnotIn⟩
    exact ((hmapped id).1 hm).elim hne (Bool.eq_false_iff.1 hunmapped)

theorem IdInvariant.afterMap (h : IdInvariant s) (hx : s.idsExhausted = false) (b : Reg) (n : Nat) :
    IdInvariant (s.afterMap b n) := by
  cases hf : s.free with
  | nil => exact h.afterMap_of_free_nil hx hf b n
  | cons top rest => exact h.afterMap_of_free_cons hf b n

/-- An Unmap moves its id from the mapped ones to the free stack. -/
theorem IdInvariant.free (h : IdInvariant s) {id : Word} (h0 : id ≠ 0#32) (hm : s.mapped id = true) :
    IdInvariant ((s.dropSegment id).pushFree id) := by
  have hle := h.le_hw_of_mapped hm
  obtain ⟨hzero, hupTo, habove, hnodup⟩ := h
  have hmapped : ∀ j, ((s.dropSegment id).pushFree id).mapped j = true ↔ j ≠ id ∧ s.mapped j = true :=
    s.mapped_dropSegment id
  refine ⟨(hmapped _).2 ⟨h0.symm, hzero⟩, fun j hj => ?upToMark, fun j hj => ?aboveMark,
    List.nodup_cons.2 ⟨(hupTo id hle).1 hm, hnodup⟩⟩
  case upToMark => rw [hmapped, hupTo j hj, State.pushFree_free, List.mem_cons, not_or, State.dropSegment_free]
  case aboveMark =>
    obtain ⟨hunmapped, hnotIn⟩ := habove j hj
    have hne : j ≠ id := by rintro rfl; exact BitVec.not_lt.2 hle hj
    refine ⟨Bool.eq_false_iff.2 fun hmj => Bool.eq_false_iff.1 hunmapped ((hmapped j).1 hmj).2, ?_⟩
    rw [State.pushFree_free, List.mem_cons, not_or]
    exact ⟨hne, hnotIn⟩

/-- Every handler keeps the id invariant (R27). -/
theorem HandlerEffect.keeps_idInvariant (h : HandlerEffect s i t) (hs : IdInvariant s) : IdInvariant t := by
  cases h with
  | raised | wroteRegister | nothing | halted | wroteByte | tookEvent | waited | jumped => exact hs
  | stored hg _ => exact hs.setSegment ((s.mapped_iff _).2 ⟨_, hg⟩) _
  | allocated hx _ => exact hs.afterMap hx _ _
  | freed h0 hm => exact hs.free h0 hm
  | replaced => exact hs.setSegment hs.1 _

/-! ### The memory's canonical form -/

theorem State.wf_afterMap (h : Memory.wf s.segs) (b : Reg) {n : Nat} (hn : n ≤ Config.maxSegmentWords) :
    Memory.wf (s.afterMap b n).segs :=
  State.wf_setSegment (by simpa using h) s.nextId (Segment.zeros_wf hn)

/-- A length held in a register is one a segment can have (R6). -/
theorem Word.toNat_le_maxSegmentWords (v : Word) : v.toNat ≤ Config.maxSegmentWords := Nat.le_pred_of_lt v.isLt

/-- Every handler keeps the canonical form (log 7). -/
theorem HandlerEffect.keeps_memoryInvariant (h : HandlerEffect s i t) (hs : MemoryInvariant s) :
    MemoryInvariant t := by
  cases h with
  | raised | wroteRegister | nothing | halted | wroteByte | tookEvent | waited | jumped => exact hs
  | stored hg ho => exact State.wf_setSegment hs _ (Segment.write_wf (State.wf_segment hs hg) ho _)
  | allocated => exact State.wf_afterMap hs _ (Word.toNat_le_maxSegmentWords _)
  | freed => exact State.wf_dropSegment hs _
  | replaced _ hg => exact State.wf_setSegment hs _ (State.wf_segment hs hg)

/-! ### What only certain handlers change -/

/-- Only Load Program and a waiting Input set `pc` (R18, R111). -/
theorem HandlerEffect.pc_cases (h : HandlerEffect s i t) :
    t.pc = s.pc ∨ (∃ b c, i = .loadprog b c) ∨ ((∃ c, i = .inp c) ∧ s.inputOffer = none) := by
  cases h with
  | raised | wroteRegister | nothing | stored | halted | freed | wroteByte | tookEvent => exact .inl rfl
  | allocated => exact .inl (s.afterMap_pc _ _)
  | waited he => exact .inr (.inr ⟨⟨_, rfl⟩, he⟩)
  | jumped | replaced => exact .inr (.inl ⟨_, _, rfl⟩)

/-- Only Map, Unmap and a copying Load Program change the length of a segment, each of one id (R30). -/
theorem HandlerEffect.segLength_cases (h : HandlerEffect s i t) {id : Word} (hne : t.segLength id ≠ s.segLength id) :
    (∃ b c, i = .map b c ∧ t.reg b = id ∧ t.segLength id = some (s.reg c).toNat) ∨
    (∃ c, i = .unmap c ∧ s.reg c = id ∧ t.segLength id = none) ∨
    (∃ b c, i = .loadprog b c ∧ s.reg b ≠ 0#32 ∧ id = 0#32 ∧ t.segLength id = s.segLength (s.reg b)) := by
  cases h with
  | raised | wroteRegister | nothing | halted | wroteByte | tookEvent | waited | jumped => exact absurd rfl hne
  | stored hg _ => exact absurd (s.segLength_write hg _ _ id) hne
  | @allocated b c =>
    obtain rfl : id = s.nextId := by_contra fun hid => hne (s.sameMemoryBut_afterMap b (s.reg c).toNat id hid).1
    exact .inl ⟨b, c, rfl, s.afterMap_reg_self b _, (s.afterMap_segLength b _ _).trans (if_pos rfl)⟩
  | @freed c =>
    obtain rfl : id = s.reg c := by_contra fun hid => hne (s.sameMemoryBut_dropSegment (s.reg c) id hid).1
    exact .inr (.inl ⟨c, rfl, rfl, (s.segLength_dropSegment _ _).trans (if_pos rfl)⟩)
  | @replaced b c g h0 hg =>
    obtain rfl : id = 0#32 := by_contra fun hid => hne (s.sameMemoryBut_setSegment 0#32 g id hid).1
    exact .inr (.inr ⟨b, c, rfl, h0, rfl, State.segLength_setSegment_copy hg 0#32⟩)

/-- A Map raises the high-water mark by one or leaves it (R42). -/
theorem State.hw_le_afterMap (hx : s.idsExhausted = false) (b : Reg) (n : Nat) : s.hw ≤ (s.afterMap b n).hw := by
  cases hf : s.free with
  | nil => simpa [hf] using BitVec.le_of_lt (State.hw_lt_succ hx hf)
  | cons top rest => simp [hf]

/-- Only Map and Unmap move the allocator, and neither lowers the high-water mark (R22, R26). -/
theorem HandlerEffect.allocator_cases (h : HandlerEffect s i t) :
    SameAllocator s t ∨ (s.hw ≤ t.hw ∧ ((∃ b c, i = .map b c) ∨ ∃ c, i = .unmap c)) := by
  cases h with
  | raised | wroteRegister | nothing | stored | halted | wroteByte | tookEvent | waited | jumped | replaced =>
    exact .inl ⟨rfl, rfl⟩
  | freed => exact .inr ⟨BitVec.le_refl _, .inr ⟨_, rfl⟩⟩
  | @allocated b c hx _ =>
    exact .inr ⟨State.hw_le_afterMap hx b _, .inl ⟨b, c, rfl⟩⟩

/-- No handler writes two registers (R14). -/
theorem HandlerEffect.sameRegsBut_one (h : HandlerEffect s i t) : ∃ r, SameRegsBut r s t := by
  cases h with
  | raised | nothing | stored | halted | freed | wroteByte | waited | jumped | replaced => exact ⟨0, fun _ _ => rfl⟩
  | @wroteRegister i r v => exact ⟨r, (s.setReg_frame r v).1⟩
  | @allocated b c => exact ⟨b, s.sameRegsBut_afterMap b _⟩
  | @tookEvent c e => exact ⟨c, ((s.takeInput e).setReg_frame c _).1⟩

/-- Only Output moves the output stream (R97). -/
theorem HandlerEffect.output_cases (h : HandlerEffect s i t) :
    t.output = s.output ∨ ∃ c, i = .out c ∧ t.output = s.output ++ [lowByte (s.reg c)] := by
  cases h with
  | raised | wroteRegister | nothing | stored | halted | freed | tookEvent | waited | jumped | replaced =>
    exact .inl rfl
  | allocated => exact .inl (s.streams_afterMap _ _).2
  | wroteByte => exact .inr ⟨_, rfl, rfl⟩

/-- Only Input moves the input stream, past one offer of the host (R98). -/
theorem HandlerEffect.input_cases (h : HandlerEffect s i t) :
    SameInput s t ∨ ∃ c, i = .inp c ∧ t.input = s.input.tail ∧ t.inputRest = s.inputRest ∧
      ((∃ e, s.inputOffer = some e ∧ t.inputLog = s.inputLog ++ [e]) ∨
       (s.inputOffer = none ∧ t.inputLog = s.inputLog)) := by
  cases h with
  | raised | wroteRegister | nothing | stored | halted | freed | wroteByte | jumped | replaced =>
    exact .inl ⟨rfl, rfl, rfl⟩
  | allocated => exact .inl (s.streams_afterMap _ _).1
  | tookEvent he => exact .inr ⟨_, rfl, rfl, rfl, .inl ⟨_, he, rfl⟩⟩
  | waited he => exact .inr ⟨_, rfl, rfl, rfl, .inr ⟨he, rfl⟩⟩

end Sys2Proof.Machine

namespace Sys2Proof.Proofs

open Sys2Proof.Machine

/-- Settles O10: the increment and a fault move no id, and every handler keeps the invariant. -/
theorem everyStepKeepsTheIdInvariant : Obligations.EveryStepKeepsTheIdInvariant :=
  fun _ _ => step_keeps (fun _ h => h) (fun _ _ h => h) fun _ _ _ heffect => heffect.keeps_idInvariant

/-- Settles O11: the increment and a fault leave the segment table, and every handler keeps its form. -/
theorem everyStepKeepsTheMemoryForm : Obligations.EveryStepKeepsTheMemoryForm :=
  fun _ _ => step_keeps (fun _ h => h) (fun _ _ h => h) fun _ _ _ heffect => heffect.keeps_memoryInvariant

/-- Settles O21: the handler runs on the incremented `pc` and leaves it so, fault or not, unless it is one of the two
that set it. -/
theorem onlyLoadProgramRedirects : Obligations.OnlyLoadProgramRedirects := by
  intro s t w i hstep hw hi hnotLoadProgram hnotWaiting
  obtain ⟨hr, -⟩ := step_next_cases hstep
  rw [step_of_decode hr hw hi] at hstep
  rcases (exec_next_effect hstep).pc_cases with hpc | ⟨b, c, rfl⟩ | ⟨⟨c, rfl⟩, hoffer⟩
  · exact hpc
  · exact absurd rfl (hnotLoadProgram b c)
  · exact absurd ⟨hr, hoffer, w, c, hw, hi⟩ hnotWaiting

/-- Settles O22: a fault changes no length, and a handler that does is one of three. -/
theorem segmentLengthsChangeInThreeWays : Obligations.SegmentLengthsChangeInThreeWays := by
  intro s t id hstep hne
  rcases step_next_effect hstep with ⟨f, rfl⟩ | ⟨f, rfl⟩ | ⟨w, i, hw, hi, heffect⟩
  · exact absurd rfl hne
  · exact absurd rfl hne
  · refine ⟨w, hw, ?_⟩
    rcases heffect.segLength_cases hne with ⟨b, c, rfl, hmap⟩ | ⟨c, rfl, hunmap⟩ | ⟨b, c, rfl, hcopy⟩
    · exact .inl ⟨b, c, hi, hmap⟩
    · exact .inr (.inl ⟨c, hi, hunmap⟩)
    · exact .inr (.inr ⟨b, c, hi, hcopy⟩)

/-- Settles O23: a fault leaves the allocator, and a handler that does not is Map's or Unmap's. -/
theorem allocatorMovesOnlyInMapAndUnmap : Obligations.AllocatorMovesOnlyInMapAndUnmap := by
  intro s t hstep
  rcases step_next_effect hstep with ⟨f, rfl⟩ | ⟨f, rfl⟩ | ⟨w, i, hw, hi, heffect⟩
  · exact ⟨BitVec.le_refl _, fun hmoved => absurd ⟨rfl, rfl⟩ hmoved⟩
  · exact ⟨BitVec.le_refl _, fun hmoved => absurd ⟨rfl, rfl⟩ hmoved⟩
  · rcases heffect.allocator_cases with hsame | ⟨hle, ⟨b, c, rfl⟩ | ⟨c, rfl⟩⟩
    · exact ⟨hsame.2 ▸ BitVec.le_refl _, fun hmoved => absurd hsame hmoved⟩
    · exact ⟨hle, fun _ => ⟨w, hw, .inl ⟨b, c, hi⟩⟩⟩
    · exact ⟨hle, fun _ => ⟨w, hw, .inr ⟨c, hi⟩⟩⟩

/-- Settles O24: a fault writes no register, and a handler at most one. -/
theorem eachStepWritesAtMostOneRegister : Obligations.EachStepWritesAtMostOneRegister := by
  intro s t hstep
  rcases step_next_effect hstep with ⟨f, rfl⟩ | ⟨f, rfl⟩ | ⟨w, i, -, -, heffect⟩
  · exact ⟨0, fun _ _ => rfl⟩
  · exact ⟨0, fun _ _ => rfl⟩
  · exact heffect.sameRegsBut_one

/-- Settles O25: a fault touches neither stream, and a handler that does is Output's or Input's. -/
theorem streamsMoveOneUnitAtATime : Obligations.StreamsMoveOneUnitAtATime := by
  intro s t hstep
  rcases step_next_effect hstep with ⟨f, rfl⟩ | ⟨f, rfl⟩ | ⟨w, i, hw, hi, heffect⟩
  · exact ⟨.inl rfl, .inl ⟨rfl, rfl, rfl⟩⟩
  · exact ⟨.inl rfl, .inl ⟨rfl, rfl, rfl⟩⟩
  · constructor
    · rcases heffect.output_cases with hsame | ⟨c, rfl, hout⟩
      · exact .inl hsame
      · exact .inr ⟨w, c, _, hw, hi, hout, lowByte_toNat _⟩
    · rcases heffect.input_cases with hsame | ⟨c, rfl, hinput⟩
      · exact .inl hsame
      · exact .inr ⟨w, c, hw, hi, hinput⟩

end Sys2Proof.Proofs
end

section
/-! Input and its wait (spec/43_io.md R96 to R99; spec/60_exceptions.md R135; log 5): what an Input does with an event
and without one, how long the machine waits, and how the wait ends. -/

namespace Sys2Proof.Machine

variable {s t u : State} {c : Reg} {e : InputEvent} {w : Word} {n : Nat}

/-! ### The handler by the host's offer -/

theorem State.inputOffer_eq {o : Option InputEvent}
    (h : (∃ rest, s.input = o :: rest) ∨ (s.input = [] ∧ s.inputRest = o)) : s.inputOffer = o := by
  rcases h with ⟨rest, hin⟩ | ⟨hin, hrest⟩
  · simp [State.inputOffer, hin]
  · simp [State.inputOffer, hin, hrest]

theorem execInp_of_offer (h : s.inputOffer = some e) :
    exec (.inp c) s = .next ((s.takeInput e).setReg c (inputValue e)) := by
  rcases execInp_cases c s with ⟨e', he', hexec⟩ | ⟨hnone, -⟩
  · obtain rfl := Option.some.inj (h.symm.trans he')
    exact hexec
  · simp [h] at hnone

theorem execInp_of_noOffer (h : s.inputOffer = none) : exec (.inp c) s = .next s.wait := by
  rcases execInp_cases c s with ⟨e', he', -⟩ | ⟨-, hexec⟩
  · simp [h] at he'
  · exact hexec

/-- The byte zero-extended, or the sentinel at end of input (R96). -/
theorem inputValue_spec (e : InputEvent) :
    (∀ b, e = .byte b → (inputValue e).toNat = b.toNat) ∧ (e = .endOfInput → inputValue e = 0xFFFFFFFF#32) := by
  refine ⟨?_, ?_⟩
  · rintro b rfl
    exact BitVec.toNat_setWidth_of_le (by decide)
  · rintro rfl
    rfl

/-- All that an Input which takes the event `e` into `x[c]` leaves behind: the value, the input stream past that event,
and everything else as in `s`, `pc` included (R96, R98). -/
def InputTaken (c : Reg) (e : InputEvent) (s t : State) : Prop :=
  (∀ b, e = .byte b → (t.reg c).toNat = b.toNat) ∧ (e = .endOfInput → t.reg c = 0xFFFFFFFF#32) ∧
  t.input = s.input.tail ∧ t.inputRest = s.inputRest ∧ t.inputLog = s.inputLog ++ [e] ∧
  SameRegsBut c s t ∧ t.pc = s.pc ∧ SameMemory s t ∧ SameAllocator s t ∧ t.status = s.status ∧
  t.output = s.output ∧ SameDraws s t

theorem inputTaken_setReg_takeInput (s : State) (c : Reg) (e : InputEvent) :
    InputTaken c e s ((s.takeInput e).setReg c (inputValue e)) := by
  obtain ⟨hbyte, hend⟩ := inputValue_spec e
  rw [← State.reg_setReg_self (s.takeInput e) c (inputValue e)] at hbyte hend
  exact ⟨hbyte, hend, rfl, rfl, rfl, ((s.takeInput e).setReg_frame c _).1, rfl, fun _ => ⟨rfl, fun _ => rfl⟩,
    ⟨rfl, rfl⟩, rfl, rfl, rfl, rfl⟩

/-- An Input for which an event is offered completes with it. -/
theorem execInp_takes (h : s.inputOffer = some e) : ∃ t, exec (.inp c) s = .next t ∧ InputTaken c e s t :=
  ⟨_, execInp_of_offer h, inputTaken_setReg_takeInput s c e⟩

/-- The frame of a wait (R98). -/
theorem State.wait_frame (s : State) :
    SameRegs s s.wait ∧ SameMemory s s.wait ∧ SameAllocator s s.wait ∧ s.wait.status = s.status ∧
      s.wait.output = s.output ∧ SameDraws s s.wait :=
  ⟨s.wait_reg, fun j => ⟨s.wait_segLength j, s.wait_wordAt j⟩, ⟨rfl, rfl⟩, rfl, rfl, rfl, rfl⟩

/-! ### Runs of steps -/

theorem Steps.snoc (h : Steps n s t) (hstep : step t = .next u) : Steps (n + 1) s u := by
  induction n generalizing s with
  | zero =>
    obtain rfl : t = s := h
    exact ⟨u, hstep, rfl⟩
  | succ n ih =>
    obtain ⟨v, hv, hrest⟩ := h
    exact ⟨v, hv, ih hrest⟩

/-- A state that steps to itself does so any number of times. -/
theorem Steps.of_step_self (h : step s = .next s) (n : Nat) : Steps n s s := by
  induction n with
  | zero => rfl
  | succ n ih => exact ⟨s, h, ih⟩

/-! ### Waiting -/

/-- A waiting step leaves the state as it is, but for the host's offer of nothing, which is past (R112). -/
theorem step_of_waiting (h : Waiting s) : step s = .next { s with input := s.input.tail } := by
  obtain ⟨hr, hnone, w, c, hw, hi⟩ := h
  rw [step_of_decode hr hw hi, execInp_of_noOffer ((s.advance_inputOffer).trans hnone), State.wait_advance]

/-- Whether a state waits depends on the input stream only through what is offered next. -/
theorem Waiting.withInput_iff (h : Waiting s) (l : List (Option InputEvent)) :
    Waiting { s with input := l } ↔ ({ s with input := l } : State).inputOffer = none := by
  obtain ⟨hr, -, hword⟩ := h
  exact ⟨fun hwait => hwait.2.1, fun hnone => ⟨hr, hnone, hword⟩⟩

/-- The first offers of a host that offers nothing `n` times are nothing. -/
theorem headD_drop_replicate {k : Nat} (hk : k < n) (l : List (Option InputEvent)) (d : Option InputEvent) :
    ((List.replicate n none ++ l).drop k).headD d = none := by
  obtain ⟨m, rfl⟩ : ∃ m, n = k + (m + 1) := ⟨n - k - 1, by omega⟩
  simp [List.drop_append, List.replicate_succ]

/-- While a host offers nothing, each attempt of the Input leads to the next (R98). -/
theorem steps_of_waiting (h : ∀ k, k < n → Waiting { s with input := s.input.drop k }) {k : Nat} (hk : k ≤ n) :
    Steps k s { s with input := s.input.drop k } := by
  induction k with
  | zero => rfl
  | succ k ih =>
    have hstep := step_of_waiting (h k hk)
    simp only [List.tail_drop] at hstep
    exact (ih (Nat.le_of_lt hk)).snoc hstep

/-- The step of an Input for which the host offers an event: the Input completes on the state with `pc` one further. -/
theorem step_takes_input (hr : s.status = .running) (hw : s.wordAt 0#32 s.pc = some w) (hi : decode w = .ok (.inp c))
    (h : s.inputOffer = some e) : ∃ t, step s = .next t ∧ InputTaken c e s.advance t := by
  rw [step_of_decode hr hw hi]
  exact execInp_takes h

end Sys2Proof.Machine

namespace Sys2Proof.Proofs

open Sys2Proof.Machine

/-- Settles O43: the handler by what the host offers. -/
theorem inputTakesOneEvent : Obligations.InputTakesOneEvent := by
  refine ⟨fun w hw => decode_of_mask_eq hw, fun c s e hoffer => ?offered, fun c s hoffer => ?notOffered⟩
  case offered => exact execInp_takes (State.inputOffer_eq hoffer)
  case notOffered =>
    exact ⟨s.wait, execInp_of_noOffer (State.inputOffer_eq hoffer), rfl, rfl, rfl, rfl, s.wait_frame⟩

/-- Settles O48: nothing offered `n` times is `n` waiting steps, and the offer after them is taken. -/
theorem waitEndsWhenTheHostOffersAnEvent : Obligations.WaitEndsWhenTheHostOffersAnEvent := by
  intro s w c n e rest hr hw hi hin
  have hwaits (k : Nat) (hk : k < n) : Waiting { s with input := s.input.drop k } := by
    refine ⟨hr, ?_, w, c, hw, hi⟩
    rw [hin]
    exact headD_drop_replicate hk _ _
  have hdrop : s.input.drop n = some e :: rest := by simp [hin]
  have hoffer : ({ s with input := s.input.drop n } : State).inputOffer = some e := by
    rw [hdrop]
    rfl
  obtain ⟨t, hstep, htaken⟩ := step_takes_input (s := { s with input := s.input.drop n }) hr hw hi hoffer
  obtain ⟨hbyte, hend, htail, hinputRest, hlog, hregs, hpc, hmem, halloc, hstatus, hout, hdraws⟩ := htaken
  have hrest : t.input = rest := htail.trans (by simp [hdrop])
  exact ⟨hwaits, fun k => steps_of_waiting hwaits, t, (steps_of_waiting hwaits le_rfl).snoc hstep, hbyte, hend, hrest,
    hinputRest, hlog, hregs, hpc, hmem, halloc, hstatus.trans hr, hout, hdraws⟩

/-- Settles O49: with no offer to come the waiting step is the identity, and an answered Input takes its answer. -/
theorem hostAnswerEndsAnyWait : Obligations.HostAnswerEndsAnyWait := by
  intro s hwait
  refine ⟨fun hin => Steps.of_step_self ?noTimeout, fun e => ?answered⟩
  case noTimeout =>
    have hsame : ({ s with input := s.input.tail } : State) = s := by rw [hin, List.tail_nil, ← hin]
    exact (step_of_waiting hwait).trans (congrArg _ hsame)
  case answered =>
    obtain ⟨hr, -, w, c, hw, hi⟩ := hwait
    obtain ⟨t, hstep, htaken⟩ := step_takes_input (s := s.answerInput e) hr hw hi (s.answerInput_inputOffer e)
    obtain ⟨hbyte, hend, htail, hinputRest, hlog, hregs, hpc, hmem, halloc, hstatus, hrest⟩ := htaken
    exact ⟨w, c, t, hw, hi, hstep, hbyte, hend, htail, hinputRest, hlog, hregs, hpc, hmem, halloc, hstatus.trans hr,
      hrest⟩

/-- Settles O26: the waiting step, and the wait by the next offer. -/
theorem waitingInputChangesNothing : Obligations.WaitingInputChangesNothing :=
  fun _ hwait => ⟨step_of_waiting hwait, hwait.withInput_iff _⟩

end Sys2Proof.Proofs
end

section
/-! Load Program (spec/44_loadprogram_loadvalue.md R100), and a Store followed by what reads its word
(spec/20_memory.md R52, R55): a Load, and the fetch of a program that is written over. -/

namespace Sys2Proof.Machine

variable {s t : State} {b c : Reg} {off v : Word} {n : Nat}

/-! ### Load Program by the id it is given -/

theorem execLoadprog_of_zero (h0 : s.reg b = 0#32) : exec (.loadprog b c) s = .next (s.setPc (s.reg c)) := by
  rcases execLoadprog_cases b c s with ⟨-, hexec⟩ | ⟨hne, -⟩ | ⟨g, hne, -⟩
  · exact hexec
  · exact absurd h0 hne
  · exact absurd h0 hne

theorem execLoadprog_of_unmapped (hne : s.reg b ≠ 0#32) (hm : s.mapped (s.reg b) = false) :
    exec (.loadprog b c) s = .next (s.raise (.loadProgramNotMapped (s.reg b))) := by
  rcases execLoadprog_cases b c s with ⟨h0, -⟩ | ⟨-, -, hexec⟩ | ⟨g, -, hg, -⟩
  · exact absurd h0 hne
  · exact hexec
  · exact absurd ((s.mapped_iff _).2 ⟨g, hg⟩) (Bool.eq_false_iff.1 hm)

theorem execLoadprog_of_mapped (hne : s.reg b ≠ 0#32) (hm : s.mapped (s.reg b) = true) :
    ∃ g, s.segment (s.reg b) = some g ∧ exec (.loadprog b c) s = .next ((s.setSegment 0#32 g).setPc (s.reg c)) := by
  rcases execLoadprog_cases b c s with ⟨h0, -⟩ | ⟨-, hn, -⟩ | ⟨g, -, hg, hexec⟩
  · exact absurd h0 hne
  · exact absurd hm (Bool.eq_false_iff.1 ((s.mapped_eq_false_iff _).2 hn))
  · exact ⟨g, hg, hexec⟩

/-- The frame of a jump (R100). -/
theorem State.setPc_frame (s : State) (v : Word) : SameRegs s (s.setPc v) ∧ SameBeyondRegs s (s.setPc v) :=
  ⟨s.setPc_reg v, fun j => ⟨s.setPc_segLength v j, s.setPc_wordAt v j⟩, ⟨rfl, rfl⟩, rfl, ⟨rfl, rfl, rfl⟩, rfl, rfl, rfl⟩

/-! ### Reading back what was written -/

/-- `SegRead` answers the word at its location. -/
theorem State.segRead_of_wordAt {id : Word} (h : s.wordAt id off = some v) : s.segRead id off = .ok v := by
  obtain ⟨g, hg, ho, rfl⟩ := (s.wordAt_eq_some_iff id off v).1 h
  obtain ⟨u, hu, hread⟩ := State.segRead_of_lt_length (n := g.length) (by rw [State.segLength, hg, Option.map_some]) ho
  obtain rfl := Option.some.inj (h.symm.trans hu)
  exact hread

/-- A fetch reads the word at `pc` and the length of segment 0, and nothing else (R40). -/
theorem State.fetch_congr (hpc : t.pc = s.pc) (hword : t.wordAt 0#32 s.pc = s.wordAt 0#32 s.pc)
    (hlen : t.segLength 0#32 = s.segLength 0#32) : t.fetch = s.fetch := by
  rw [State.fetch, State.fetch, hpc, hword, hlen]

/-- After a completed `SegWrite` to segment 0 the written offset fetches the new word (R55). -/
theorem State.fetch_written (h : s.segWrite 0#32 off v = .ok t) : (t.setPc off).fetch = .ok v := by
  rw [State.fetch_eq_ok_iff, State.setPc_wordAt, State.setPc_pc, State.wordAt_of_segWrite h, if_pos rfl]

/-- Every other offset fetches what it did before. -/
theorem State.fetch_not_written (h : s.segWrite 0#32 off v = .ok t) {k : Word} (hk : k ≠ off) :
    (t.setPc k).fetch = (s.setPc k).fetch := by
  have hword : t.wordAt 0#32 k = s.wordAt 0#32 k := by simp [State.wordAt_of_segWrite h, hk]
  exact State.fetch_congr rfl hword (State.segLength_of_segWrite h 0#32)

end Sys2Proof.Machine

namespace Sys2Proof.Proofs

open Sys2Proof.Machine

/-- Settles O44: the three ways a Load Program ends, by the id in `x[B]`. -/
theorem loadProgramJumpsAndCopies : Obligations.LoadProgramJumpsAndCopies := by
  refine ⟨fun w hw => decode_of_mask_eq hw, fun b c s =>
    ⟨fun h0 => ?jump, fun hne hm => ?unmapped, fun hne hm => ?copy⟩⟩
  case jump => exact ⟨s.setPc (s.reg c), execLoadprog_of_zero h0, rfl, s.setPc_frame _⟩
  case unmapped => exact .of_eq_raise (execLoadprog_of_unmapped hne hm)
  case copy =>
    obtain ⟨g, hg, hexec⟩ := execLoadprog_of_mapped (c := c) hne hm
    obtain ⟨hregs, -, hrest⟩ := s.setSegment_frame 0#32 g
    exact ⟨_, hexec, rfl, State.segLength_setSegment_copy hg 0#32, State.wordAt_setSegment_copy hg 0#32,
      s.sameMemoryBut_setSegment 0#32 g, hregs, hrest⟩

/-- Settles O46: the Load's registers are those of the state before the Store, and its location holds the new word. -/
theorem loadAfterStoreReadsTheValue : Obligations.LoadAfterStoreReadsTheValue := by
  intro s a b c d e f n hn ho he hf
  obtain ⟨t, hwrite⟩ := State.segWrite_of_lt_length hn ho (s.reg c)
  obtain ⟨hregs, -⟩ := State.frame_of_segWrite hwrite
  have hword : t.wordAt (t.reg e) (t.reg f) = some (s.reg c) := by
    rw [hregs e, hregs f, he, hf, State.wordAt_of_segWrite hwrite, if_pos rfl]
  exact ⟨t, _, execStore_of_segWrite_ok hwrite, execLoad_of_segRead_ok (State.segRead_of_wordAt hword),
    t.reg_setReg_self d _⟩

/-- Settles O47: the step is the fetched Store's write to segment 0, and a fetch reads what that write left. -/
theorem storeIntoTheProgramIsFetchedNext : Obligations.StoreIntoTheProgramIsFetchedNext := by
  intro s w a b c n hr hw hi ha hn ho
  obtain ⟨t, hwrite⟩ := State.segWrite_of_lt_length (s := s.advance) (off := s.reg b) hn ho (s.reg c)
  obtain ⟨-, hpc, -, hstatus, -⟩ := State.frame_of_segWrite hwrite
  have hstep : step s = .next t := by
    rw [step_of_decode hr hw hi]
    refine execStore_of_segWrite_ok ?_
    rw [s.advance_reg a, ha]
    exact hwrite
  exact ⟨t, hstep, hstatus.trans hr, hpc, State.fetch_written hwrite, fun _ hk => State.fetch_not_written hwrite hk⟩

end Sys2Proof.Proofs
end
